-- ==== Sys2Proof/Word.lean ====
section
/-! DEFINITION. Words and bytes: the 16-bit command word (R7, R47) and the byte of a transmission (R37). -/

namespace Sys2Proof

/-- A command word: bit 0 is the least significant, bit 15 the most (R7, R47). -/
abbrev Word := BitVec 16

/-- One of the two bytes of a transmission (R37). -/
abbrev Byte := BitVec 8

end Sys2Proof
end

