-- ==== Sys2Proof/Config.lean ====
section
/-! DEFINITION. The implementation parameters of R6: the fixed constants, the OPEN parameters as one record that a
state carries (`Params`), and the free value of the reference chip model. -/

namespace Sys2Proof

/-- `ROWS_8`: the row count of the two 8-COM modes (R6, R14). -/
abbrev rows8 : Nat := 64

/-- `ROWS_16`: the row count of the two 16-COM modes (R6, R14). -/
abbrev rows16 : Nat := 96

/-- `WRITE_BASE` (R6; decision D5 takes it in all four modes). -/
abbrev writeBase : Nat := 0xA000

/-- `ADDR_INC` (R6, R50; decision D5). -/
abbrev addrInc : Nat := 64

/-- `CLOCK_HZ`: 2.56 MHz, in Hz (R6, R114; decision D24). -/
abbrev clockHz : Nat := 2560000

/-- `PWM_DEFAULT` (R6, R17). -/
abbrev pwmDefault : BitVec 4 := 15

/-- `DEVICE`, the opaque identifier handed to `open` (R6, decision D25). DESIGN CHOICE (log 5): a number names it. -/
abbrev DeviceId := Nat

/-- The opaque handle that `open` returns (R18). DESIGN CHOICE (log 5): a number names it. -/
abbrev Handle := Nat

/-- `LAST_ROW_LOOKAHEAD_TARGET`: where the reference chip puts the last row's two lookahead bits (R6, R45, D27). -/
inductive LastRowTarget where
  | none
  | row0
  | unknown
deriving DecidableEq, Repr

/-- The OPEN parameters of R6. DESIGN CHOICE (log 4): a state carries them, no step writes them, and a statement about
every state is a statement about every choice of them. -/
structure Params where
  cmdSysDis : Word
  cmdSysEn : Word
  cmdLedOff : Word
  cmdLedOn : Word
  cmdBlinkOff : Word
  cmdBlinkOn : Word
  cmdMaster : Word
  pwmBase : Nat
  pwmStep : Nat
  lastRowTarget : LastRowTarget
  device : DeviceId
deriving DecidableEq, Repr

/-- The reference configuration of R6. PRESUMED (log 3): the spec marks the words as general knowledge; `unknown` is the
least assuming target (R111: "A reader must not assume `none`"), and device 0 is a name only. -/
def Params.reference : Params where
  cmdSysDis := 0x8000
  cmdSysEn := 0x8020
  cmdLedOff := 0x8040
  cmdLedOn := 0x8060
  cmdBlinkOff := 0x8100
  cmdBlinkOn := 0x8120
  cmdMaster := 0x8300
  pwmBase := 0x9400
  pwmStep := 0x20
  lastRowTarget := .unknown
  device := 0

/-- The constraints R6 puts on the OPEN parameters: every PWM word is a 16-bit word, and the sixteen are distinct. -/
abbrev Params.Valid (p : Params) : Prop :=
  p.pwmBase + 15 * p.pwmStep ≤ 0xFFFF ∧ p.pwmStep ≠ 0

/-- The seven fixed command words (R55). -/
abbrev Params.fixedWords (p : Params) : List Word :=
  [p.cmdSysDis, p.cmdSysEn, p.cmdLedOn, p.cmdLedOff, p.cmdBlinkOn, p.cmdBlinkOff, p.cmdMaster]

/-- The four mode constants (R6, R13). -/
abbrev modeConstants : List Word := [0x8400, 0x8480, 0x8500, 0x8580]

/-- The word has the `WRITE` format's ID, `0b101` (R49, R56). -/
abbrev isWriteWord (w : Word) : Prop := w.extractLsb 15 13 = (0b101 : BitVec 3)

/-- The four word sets of R56 are pairwise disjoint and the seven fixed words are distinct, as R56 says of the reference
configuration; where they overlap, only the order of `classify` tells the words apart. -/
abbrev Params.Separated (p : Params) : Prop :=
  (p.fixedWords ++ modeConstants).Nodup
    ∧ (p.fixedWords.all fun w => !decide (isWriteWord w)) = true
    ∧ ∀ l < 16, BitVec.ofNat 16 (p.pwmBase + l * p.pwmStep) ∉ p.fixedWords ++ modeConstants
        ∧ ¬ isWriteWord (BitVec.ofNat 16 (p.pwmBase + l * p.pwmStep))

/-- FREE VALUE (log 7): the content of a chip RAM cell that R45 leaves unconstrained, by the number of the draw, the row
and the column. Nothing constrains it. -/
opaque Config.freeChipCell : Nat → Nat → Nat → Bool

end Sys2Proof
end

