-- ==== Sys2Proof/Syntax.lean ====
section
/-! DEFINITION. The operations of the opcode table as syntax: ten encoder calls (one per word row) and nine requests. -/

namespace Sys2Proof

/-- An operand of a request: a dynamically typed value (R58, decision D2). -/
inductive Val where
  /-- `VBool(b)`, a boolean. -/
  | vBool (b : Bool)
  /-- `VInt(n)`, an integer of any sign and size. -/
  | vInt (n : Int)
  /-- `VOther`, any other value: a fraction, a string, an object or an explicit null. -/
  | vOther
deriving DecidableEq, Repr

/-- One constructor per row of `opcode_table.json`. A word row is a call of the encoder function that its `rule` names,
with that function's operands; a request row is the request record of R58. -/
inductive Instr where
  /-- `ENC_SYS_DIS()` (R63). -/
  | sysDis
  /-- `ENC_SYS_EN()` (R64). -/
  | sysEn
  /-- `ENC_LED_ON()` (R65). -/
  | ledOn
  /-- `ENC_LED_OFF()` (R66). -/
  | ledOff
  /-- `ENC_BLINK_ON()` (R67). -/
  | blinkOn
  /-- `ENC_BLINK_OFF()` (R68). -/
  | blinkOff
  /-- `ENC_MASTER()` (R69). -/
  | master
  /-- `ENC_MODE(m)` (R70). -/
  | mode (m : Int)
  /-- `ENC_PWM(level)` (R71). -/
  | pwm (level : Int)
  /-- `ENC_WRITE(rowCount, offset, d0, d1, d2, d3, la0, la1)`, its `rowCount` taken from `MODE` (R72). -/
  | write (offset : Int) (d0 d1 d2 d3 la0 la1 : Bool)
  /-- `INIT [mode]` (R74). -/
  | init (mode : Option Val)
  /-- `GET_BLINK` (R76). -/
  | getBlink
  /-- `SET_BLINK enabled` (R77). -/
  | setBlink (enabled : Val)
  /-- `GET_PWM` (R78). -/
  | getPwm
  /-- `SET_PWM level` (R79). -/
  | setPwm (level : Val)
  /-- `WRITE_ADDR offset, d0, d1, d2, d3` (R81). -/
  | writeAddr (offset d0 d1 d2 d3 : Val)
  /-- `WRITE_LED offset, ledIndex, value` (R82). -/
  | writeLed (offset ledIndex value : Val)
  /-- `CLEAR` (R83). -/
  | clear
  /-- `READ_MAP` (R84). -/
  | readMap
deriving DecidableEq, Repr

end Sys2Proof
end

