-- ==== Sys2Proof/WellFormed.lean ====
section
/-! DEFINITION. Which operations are well formed: an encoder call whose operands fit the fields of its word. -/

namespace Sys2Proof

/-- A well-formed operation. The operands of an encoder call fit the word's fields: a mode constant (R70), a level of 0
to 15 (R53), a 7-bit `ADDR` (R49). A request may carry any operand values: what is wrong with them the block itself
answers (R58, R87). -/
def Instr.wf : Instr → Bool
  | .sysDis | .sysEn | .ledOn | .ledOff | .blinkOn | .blinkOff | .master => true
  | .mode m => m == 0x8400 || m == 0x8480 || m == 0x8500 || m == 0x8580
  | .pwm level => decide (0 ≤ level ∧ level < 16)
  | .write offset _ _ _ _ _ _ => decide (0 ≤ offset ∧ offset < 128)
  | .init _ | .getBlink | .setBlink _ | .getPwm | .setPwm _ => true
  | .writeAddr _ _ _ _ _ | .writeLed _ _ _ | .clear | .readMap => true

end Sys2Proof
end

