-- ==== Sys2Proof/Decode.lean ====
section
/-! DEFINITION. The observer's decoder of command words (R56 `classify`) from bytes in transmission order (R37), and the
encoder of an operation's word written from the formats of R48, R49 and R53; and the notation requests are written in
(R59). -/

namespace Sys2Proof

/-- The operation is an encoder call (a word row of the table), not a request. -/
def Instr.isEncoderCall : Instr → Bool
  | .sysDis | .sysEn | .ledOn | .ledOff | .blinkOn | .blinkOff | .master => true
  | .mode _ | .pwm _ | .write _ _ _ _ _ _ _ => true
  | .init _ | .getBlink | .setBlink _ | .getPwm | .setPwm _ => false
  | .writeAddr _ _ _ _ _ | .writeLed _ _ _ | .clear | .readMap => false

/-- The byte transmitted first, `w[15:8]` (R37). -/
def Word.hiByte (w : Word) : Byte := w.extractLsb 15 8

/-- The byte transmitted second, `w[7:0]` (R37). -/
def Word.loByte (w : Word) : Byte := w.extractLsb 7 0

/-- The word of a transmitted byte pair, the first byte the more significant (R37). -/
def wordOfBytes (hi lo : Byte) : Word := hi ++ lo

/-- Why a byte sequence is no command word of the block. -/
inductive DecodeError where
  /-- `classify` answers `NOT_EMITTED` (R56 step 5). -/
  | notEmitted (w : Word)
  /-- Fewer than two bytes: every transmission is exactly 2 bytes (R37, R61). -/
  | truncated
deriving DecidableEq, Repr

/-- The level `l` of 0 to 15 with `w = PWM_BASE + l × PWM_STEP`, the lowest if there are several (R56 step 3). -/
def pwmLevelOf (p : Params) (w : Word) : Option Nat :=
  (List.range 16).find? fun l => w.toNat == p.pwmBase + l * p.pwmStep

/-- `classify(w)` in the order of R56; the result names the encoder call that builds the word. -/
def decode (p : Params) (w : Word) : Except DecodeError Instr :=
  if w = p.cmdSysDis then .ok .sysDis
  else if w = p.cmdSysEn then .ok .sysEn
  else if w = p.cmdLedOn then .ok .ledOn
  else if w = p.cmdLedOff then .ok .ledOff
  else if w = p.cmdBlinkOn then .ok .blinkOn
  else if w = p.cmdBlinkOff then .ok .blinkOff
  else if w = p.cmdMaster then .ok .master
  else if w ∈ modeConstants then .ok (.mode w.toNat)
  else match pwmLevelOf p w with
    | some l => .ok (.pwm l)
    | none =>
      if isWriteWord w then
        .ok (.write (w.extractLsb 12 6).toNat (w.getLsbD 5) (w.getLsbD 4) (w.getLsbD 3) (w.getLsbD 2)
          (w.getLsbD 1) (w.getLsbD 0))
      else .error (.notEmitted w)

/-- Decode the first transmission of a byte stream, and give the rest of the stream (R37, R39). -/
def decodeBytes (p : Params) : List Byte → Except DecodeError (Instr × List Byte)
  | hi :: lo :: rest =>
    match decode p (wordOfBytes hi lo) with
    | .ok i => .ok (i, rest)
    | .error e => .error e
  | _ => .error .truncated

/-- The WRITE format's fields put side by side (R49):
`0b101 ++ ADDR ++ D0 ++ D1 ++ D2 ++ D3 ++ LA0 ++ LA1`. -/
def writeLayout (addr : BitVec 7) (d0 d1 d2 d3 la0 la1 : Bool) : Word :=
  (0b101 : BitVec 3) ++ addr ++ BitVec.ofBool d0 ++ BitVec.ofBool d1 ++ BitVec.ofBool d2 ++ BitVec.ofBool d3
    ++ BitVec.ofBool la0 ++ BitVec.ofBool la1

/-- The word of an encoder call (R48, R49, R53, R55); a request has no bit encoding (R58, decision D1). -/
def encode (p : Params) : Instr → Option Word
  | .sysDis => some p.cmdSysDis
  | .sysEn => some p.cmdSysEn
  | .ledOn => some p.cmdLedOn
  | .ledOff => some p.cmdLedOff
  | .blinkOn => some p.cmdBlinkOn
  | .blinkOff => some p.cmdBlinkOff
  | .master => some p.cmdMaster
  | .mode m => some (BitVec.ofInt 16 m)
  | .pwm level => some (BitVec.ofNat 16 (p.pwmBase + level.toNat * p.pwmStep))
  | .write offset d0 d1 d2 d3 la0 la1 => some (writeLayout (BitVec.ofNat 7 offset.toNat) d0 d1 d2 d3 la0 la1)
  | .init _ | .getBlink | .setBlink _ | .getPwm | .setPwm _ => none
  | .writeAddr _ _ _ _ _ | .writeLed _ _ _ | .clear | .readMap => none

/-- What the decoder reads from the table bits `w`, numbered from 0, those from `nbits` up being 0: the word's two bytes
in transmission order (R37), decoded in the reference configuration, which is the one the table's `match` values are
written in. No instruction is longer than one word (R61), so a set bit above bit 15 leaves nothing to decode. -/
def decodeTableWord (nbits w : Nat) : Option Instr :=
  let bits := w % 2 ^ nbits
  let word : Word := BitVec.ofNat 16 bits
  if 2 ^ 16 ≤ bits then none
  else match decodeBytes Params.reference [word.hiByte, word.loByte] with
    | .ok (i, _) => some i
    | .error _ => none

/-! ### The request notation (R59) -/

/-- The value of a digit, which must be below the base. -/
def digit (base : Nat) (c : Char) : Option Nat :=
  let d :=
    if '0' ≤ c ∧ c ≤ '9' then c.toNat - 48
    else if 'a' ≤ c ∧ c ≤ 'f' then c.toNat - 87
    else if 'A' ≤ c ∧ c ≤ 'F' then c.toNat - 55
    else base
  if d < base then some d else none

/-- The value of digits, the most significant first; no digits are no numeral. -/
def digits (base : Nat) (cs : List Char) : Option Nat :=
  if cs = [] then none else cs.foldlM (fun n c => (digit base c).map (base * n + ·)) 0

/-- A decimal or `0x` numeral. -/
def unsignedNumeral : List Char → Option Nat
  | '0' :: 'x' :: cs => digits 16 cs
  | cs => digits 10 cs

/-- A numeral with an optional `-` sign. -/
def numeral : List Char → Option Int
  | '-' :: cs => (unsignedNumeral cs).map fun n => -(n : Int)
  | cs => (unsignedNumeral cs).map fun n => (n : Int)

/-- The operand a token spells (R59): any other token spells `VOther`. -/
def Val.ofToken (t : List Char) : Val :=
  if t = "true".toList then .vBool true
  else if t = "false".toList then .vBool false
  else if t = "MODE_8NMOS".toList then .vInt 0x8400
  else if t = "MODE_16NMOS".toList then .vInt 0x8480
  else if t = "MODE_8PMOS".toList then .vInt 0x8500
  else if t = "MODE_16PMOS".toList then .vInt 0x8580
  else match numeral t with
    | some n => .vInt n
    | none => .vOther

/-- The request record of a kind and its operands (R58). -/
def requestOf (kind : List Char) (operands : List Val) : Option Instr :=
  match operands with
  | [] =>
    if kind = "INIT".toList then some (.init none)
    else if kind = "GET_BLINK".toList then some .getBlink
    else if kind = "GET_PWM".toList then some .getPwm
    else if kind = "CLEAR".toList then some .clear
    else if kind = "READ_MAP".toList then some .readMap
    else none
  | [v] =>
    if kind = "INIT".toList then some (.init (some v))
    else if kind = "SET_BLINK".toList then some (.setBlink v)
    else if kind = "SET_PWM".toList then some (.setPwm v)
    else none
  | [o, k, v] => if kind = "WRITE_LED".toList then some (.writeLed o k v) else none
  | [o, d0, d1, d2, d3] => if kind = "WRITE_ADDR".toList then some (.writeAddr o d0 d1 d2 d3) else none
  | _ => none

/-- A text cut at each comma. -/
def commaPieces : List Char → List (List Char)
  | [] => [[]]
  | c :: cs =>
    match commaPieces cs with
    | [] => [[c]]
    | p :: ps => if c = ',' then [] :: p :: ps else (c :: p) :: ps

/-- A text without the spaces at its ends. -/
def trimSpaces (t : List Char) : List Char :=
  ((t.dropWhile (· == ' ')).reverse.dropWhile (· == ' ')).reverse

/-- The request a line spells (R59): its kind, then its operands with commas between them, up to a comment. -/
def readRequest (line : List Char) : Option Instr :=
  let text := trimSpaces (line.takeWhile (· != ';'))
  let kind := text.takeWhile (· != ' ')
  let rest := trimSpaces (text.drop kind.length)
  requestOf kind (if rest = [] then [] else (commaPieces rest).map fun t => Val.ofToken (trimSpaces t))

end Sys2Proof
end

