-- ==== Sys2Proof/Machine/State.lean ====
section
/-! DEFINITION. The state of the machine as plain data: the block's ten elements (R10), the OPEN parameters, and the
agents and ports around the block (R22); the outcomes of a step; the state after reset. -/

namespace Sys2Proof.Machine

/-- A row of the shadow map or of chip RAM: four boolean columns (R7, R15). -/
structure Row where
  c0 : Bool
  c1 : Bool
  c2 : Bool
  c3 : Bool
deriving DecidableEq, Repr

/-- The all-false row `(false, false, false, false)`. -/
abbrev Row.clear : Row := ⟨false, false, false, false⟩

/-- `SHADOW` (R15): row number and row, strictly rising, no row listed that is all-false; an unlisted row is all-false.
DESIGN CHOICE (log 2): the unit is the row, since the row space has "no bytes and no words" (R30). -/
abbrev Memory := List (Nat × Row)

/-- `LIFE` (R12). -/
inductive Life where
  | uninit
  | ready
deriving DecidableEq, Repr

/-- `MODE` (R13): bit 0 is `COM16`, bit 1 is `PMOS`. -/
structure Mode where
  com16 : Bool
  pmos : Bool
deriving DecidableEq, Repr

/-- The values of the sticky `FAULT` register (R20). -/
inductive FaultCode where
  | none
  | notReady
  | reinit
  | openFailed
deriving DecidableEq, Repr

/-- A transport action (R19, R44): `Open(dev)`, `SetClock(hz)` or `Tx(w)`. -/
inductive Action where
  | openDev (dev : DeviceId)
  | setClock (hz : Nat)
  | tx (w : Word)
deriving DecidableEq, Repr

/-- A response (R24). -/
inductive Response where
  | ok
  | okBool (b : Bool)
  | okLevel (n : BitVec 4)
  | okMap (rows : List Row)
  /-- `Err(INVALID_ARGUMENT)`. -/
  | invalidArgument
deriving DecidableEq, Repr

/-- The result of an encoder function (40_encoder.md, R89). -/
inductive EncResult where
  | ok (w : Word)
  | invalidArgument
  | outOfRange
deriving DecidableEq, Repr

/-- The transport's completion of an action (R25): `ok` or `error`. A successful `Open` returns its handle with it; the
handle of another action's `ok` means nothing. -/
inductive Completion where
  | ok (handle : Handle)
  | error
deriving DecidableEq, Repr

/-- A call of the transport's capability (R44), a word as its two bytes in the order sent (R37). -/
inductive TransportCall where
  | openDev (dev : DeviceId)
  | setClockRate (handle : Handle) (hz : Nat)
  | transmit (handle : Handle) (first second : Byte)
deriving DecidableEq, Repr

/-- What leaves the block at its output ports (R22): a call at the transport port, a response at the response port, a
`TransportError(w)` at the report port. -/
inductive Event where
  | call (c : TransportCall)
  | response (r : Response)
  | report (w : Word)
deriving DecidableEq, Repr

/-- Whose turn a step is (R22). -/
inductive Move where
  /-- The block takes its next step (R73). -/
  | block
  /-- The transport completes the action in flight. -/
  | transport
  /-- The requester presents its next operation. -/
  | requester
  /-- The transport completes the `n`-th of the actions that resets abandoned and that are not yet completed (R102). Which one
  comes is open; DESIGN CHOICE (log 22): the schedule says it, so any order is possible, and any may never complete. -/
  | stale (n : Nat)
  /-- The block's reset input is asserted (R102). -/
  | reset
deriving DecidableEq, Repr

/-- An action that a reset abandoned in flight (R102), with the `rowCount` its word was built for, which R45 needs and the
block no longer holds (log 9). -/
structure Abandoned where
  action : Action
  rowCount : Nat
deriving DecidableEq, Repr

/-- `CHIP` of the reference chip model (R45): the rows written since all of it last became unconstrained, latest first; any
other row is the free row of draw `base`; `draws` is the number of draws made. -/
structure Chip where
  base : Nat
  draws : Nat
  rows : List (Nat × Row)
deriving DecidableEq, Repr

/-- Why a run stops. Safe: the block takes no further step, and R93 has a model count a run that faults as failed. Raised
by `step` alone, when the block has faulted, the schedule is empty and no agent can move. -/
inductive Fault where
  /-- `FAULT = NOT_READY` (R91). Safe. -/
  | notReady
  /-- `FAULT = REINIT` (R92). Safe. -/
  | reinit
  /-- `FAULT = OPEN_FAILED` (R94). Safe. -/
  | openFailed
deriving DecidableEq, Repr

/-- Why an operation has no meaning. -/
inductive Refusal where
  /-- The operation has no meaning yet; no arm of `exec` answers so. Safe. -/
  | notModelled (mnemonic : String)
deriving DecidableEq, Repr

/-- The state: the block's elements of R10, then the parameters, then the agents and ports. -/
structure State where
  /-- `LIFE` (R12). -/
  life : Life
  /-- `MODE` (R13). -/
  mode : Mode
  /-- `SHADOW` (R15). -/
  shadow : Memory
  /-- `BLINK` (R16). -/
  blink : Bool
  /-- `PWM` (R17). -/
  pwm : BitVec 4
  /-- `HANDLE` (R18). -/
  handle : Handle
  /-- `QUEUE`: the transport actions still to be issued, in order (R19). -/
  queue : List Action
  /-- `INFLIGHT`: the action handed to the transport and not yet completed (R19). -/
  inflight : Option Action
  /-- `RESP`: the response owed to the requester (R19). -/
  resp : Option Response
  /-- `FAULT` (R20). -/
  fault : FaultCode
  /-- The OPEN parameters (R6). No step writes them. -/
  params : Params
  /-- The operation presented: a request held at the request port (R23), or a bench's encoder call (D30). -/
  port : Option Instr
  /-- The operations the requester has yet to present, in order. -/
  requester : List Instr
  /-- The completions the transport will give, in order; it completes nothing once they run out (R44, R100). -/
  transport : List Completion
  /-- Whose turns come next; once it is empty, whoever can move does. -/
  schedule : List Move
  /-- The actions that a reset abandoned in flight, oldest first (R102); they may complete in any order (log 22). -/
  abandoned : List Abandoned
  /-- What has left the block's output ports, oldest first. -/
  log : List Event
  /-- The encoder's output as a bench last sampled it (R62, D30); the block never reads it. -/
  encOut : Option EncResult
  /-- The reference chip model (R45). -/
  chip : Chip
deriving DecidableEq, Repr

/-- The machine right after reset (R102, R103) under the parameters `p`. The spec gives `MODE`, `SHADOW`, `BLINK`, `PWM` and
`HANDLE` no value; DESIGN CHOICE (log 1): zero, in each. -/
def State.resetWith (p : Params) : State where
  life := .uninit
  mode := ⟨false, false⟩
  shadow := []
  blink := false
  pwm := 0
  handle := 0
  queue := []
  inflight := none
  resp := none
  fault := .none
  params := p
  port := none
  requester := []
  transport := []
  schedule := []
  abandoned := []
  log := []
  encOut := none
  chip := ⟨0, 1, []⟩

/-- The machine right after reset, in the reference configuration (log 3). -/
def State.reset : State := State.resetWith Params.reference

end Sys2Proof.Machine
end

