-- ==== Sys2Proof/Machine/Operands.lean ====
section
/-! DEFINITION. The operands of a request: what each must be for the request's validation to pass (R87), and the mode as
the word that selects it (R13). -/

namespace Sys2Proof.Machine

/-- `rowCount` of a mode (R14). -/
def Mode.rowCount (m : Mode) : Nat := if m.com16 then rows16 else rows8

/-- `modeWord(MODE) = 0x8400 + 0x100 × PMOS + 0x80 × COM16` (R13). -/
def Mode.word (m : Mode) : Word := BitVec.ofNat 16 (0x8400 + 0x100 * m.pmos.toNat + 0x80 * m.com16.toNat)

/-- `MODE` as the two bits R13 numbers: bit 0 `COM16`, bit 1 `PMOS`. -/
def Mode.bits (m : Mode) : BitVec 2 := BitVec.ofBool m.pmos ++ BitVec.ofBool m.com16

/-- `modeOf`, defined only on the four mode constants (R13). -/
def modeOf (m : Int) : Option Mode :=
  if m = 0x8400 then some ⟨false, false⟩
  else if m = 0x8480 then some ⟨true, false⟩
  else if m = 0x8500 then some ⟨false, true⟩
  else if m = 0x8580 then some ⟨true, true⟩
  else none

/-- `DEFAULT_MODE`, the mode of `MODE_8PMOS` (R6, R74). -/
def defaultMode : Mode := ⟨false, true⟩

/-- A flag operand: it must be `VBool` (R87, decision D19). -/
def boolOperand : Val → Option Bool
  | .vBool b => some b
  | .vInt _ => none
  | .vOther => none

/-- An integer operand of `0 .. bound−1`: it must be `VInt` in that range (R87, decision D19). -/
def indexOperand (bound : Nat) : Val → Option Nat
  | .vInt n => if 0 ≤ n ∧ n < bound then some n.toNat else none
  | .vBool _ => none
  | .vOther => none

/-- The `level` of `SET_PWM`: an integer of 0 to 15 (R79, R87). -/
def levelOperand (v : Val) : Option (BitVec 4) := (indexOperand 16 v).map (BitVec.ofNat 4)

/-- The `ledIndex` of `WRITE_LED`: an integer of 0 to 3 (R82, R87). -/
def ledOperand (v : Val) : Option Nat := indexOperand 4 v

/-- The `mode` of `INIT`: absent, or `VInt` of one of the four mode constants (R74, R87). -/
def modeOperand : Option Val → Option Mode
  | none => some defaultMode
  | some (.vInt n) => modeOf n
  | some (.vBool _) => none
  | some .vOther => none

/-- The data operands of `WRITE_ADDR`: four booleans (R81, R87). -/
def rowOperand (d0 d1 d2 d3 : Val) : Option Row :=
  match boolOperand d0, boolOperand d1, boolOperand d2, boolOperand d3 with
  | some b0, some b1, some b2, some b3 => some ⟨b0, b1, b2, b3⟩
  | _, _, _, _ => none

end Sys2Proof.Machine
end

