-- ==== Sys2Proof/Machine/Encoder.lean ====
section
/-! DEFINITION. The Command Encoder: ten pure functions of their operands and the parameters (R62 to R72). -/

namespace Sys2Proof.Machine

/-- `mask16(v) = v mod 65536` (R7, R54). -/
def mask16 (v : Nat) : Word := BitVec.ofNat 16 v

/-- `ENC_SYS_DIS()` (R63). -/
def encSysDis (p : Params) : EncResult := .ok p.cmdSysDis

/-- `ENC_SYS_EN()` (R64). -/
def encSysEn (p : Params) : EncResult := .ok p.cmdSysEn

/-- `ENC_LED_ON()` (R65). -/
def encLedOn (p : Params) : EncResult := .ok p.cmdLedOn

/-- `ENC_LED_OFF()` (R66). -/
def encLedOff (p : Params) : EncResult := .ok p.cmdLedOff

/-- `ENC_BLINK_ON()` (R67). -/
def encBlinkOn (p : Params) : EncResult := .ok p.cmdBlinkOn

/-- `ENC_BLINK_OFF()` (R68). -/
def encBlinkOff (p : Params) : EncResult := .ok p.cmdBlinkOff

/-- `ENC_MASTER()` (R69). -/
def encMaster (p : Params) : EncResult := .ok p.cmdMaster

/-- `ENC_MODE(m)`: the identity on the four mode constants (R70). -/
def encMode (m : Int) : EncResult :=
  if m = 0x8400 ∨ m = 0x8480 ∨ m = 0x8500 ∨ m = 0x8580 then .ok (mask16 m.toNat) else .invalidArgument

/-- `ENC_PWM(level)` (R53, R71). -/
def encPwm (p : Params) (level : Int) : EncResult :=
  if 0 ≤ level ∧ level ≤ 15 then .ok (mask16 (p.pwmBase + level.toNat * p.pwmStep)) else .invalidArgument

/-- `ENC_WRITE(rowCount, offset, d0, d1, d2, d3, la0, la1)` (R72): the sum of R49's weights, the lookahead bits forced to 0
at the last row (decision D7). -/
def encWrite (rowCount : Nat) (offset : Int) (d0 d1 d2 d3 la0 la1 : Bool) : EncResult :=
  if 0 ≤ offset ∧ offset < rowCount then
    let keep := decide (offset ≠ rowCount - 1)
    .ok (mask16 (writeBase + offset.toNat * addrInc
      + 0x20 * d0.toNat + 0x10 * d1.toNat + 0x08 * d2.toNat + 0x04 * d3.toNat
      + 0x02 * (la0 && keep).toNat + 0x01 * (la1 && keep).toNat))
  else .outOfRange

end Sys2Proof.Machine
end

