-- ==== Sys2Proof/Machine/Flags.lean ====
section
/-! DEFINITION. The block has no condition flags (R21): the status of a request is carried by its response. Here are the
numeric codes R95 gives the statuses, the faults and the report (decision D16), and those of `LIFE` (R12). -/

namespace Sys2Proof.Machine

/-- The value of the 1-bit `LIFE` register (R12). -/
def Life.code : Life → BitVec 1
  | .uninit => 0
  | .ready => 1

/-- The status code of a response (R95). -/
def Response.code : Response → Nat
  | .ok => 0x00
  | .okBool _ => 0x00
  | .okLevel _ => 0x00
  | .okMap _ => 0x00
  | .invalidArgument => 0x01

/-- The code of an encoder result (R95). R95 gives the two errors their codes and lists none for `EncOk`; DESIGN CHOICE
(log 21): 0x00, the code of `OK`. -/
def EncResult.code : EncResult → Nat
  | .ok _ => 0x00
  | .invalidArgument => 0x01
  | .outOfRange => 0x02

/-- The code of a fault; `NONE` is no fault and has none (R95). -/
def FaultCode.code : FaultCode → Option Nat
  | .none => Option.none
  | .notReady => some 0x10
  | .reinit => some 0x11
  | .openFailed => some 0x12

/-- The code of a `TransportError` report (R95). -/
def transportErrorCode : Nat := 0x20

end Sys2Proof.Machine
end

