-- ==== Sys2Proof/Machine/Ops.lean ====
section
/-! DEFINITION. The shared operations: the shadow map's reads and writes (R30 to R35), what an accepted request does to the
sequencer (R73), the fault mechanism (R93) and the reset that alone ends it (R102). -/

namespace Sys2Proof.Machine

/-! ### The shadow map -/

/-- The row a shadow map holds at `r`; a row that is not listed is all-false. -/
def Memory.read : Memory → Nat → Row
  | [], _ => .clear
  | (a, v) :: m, r => if a = r then v else Memory.read m r

/-- The shadow map with row `r` replaced, in canonical form. -/
def Memory.write : Memory → Nat → Row → Memory
  | [], r, v => if v = .clear then [] else [(r, v)]
  | (a, x) :: m, r, v =>
    if r < a then (if v = .clear then (a, x) :: m else (r, v) :: (a, x) :: m)
    else if r = a then (if v = .clear then m else (r, v) :: m)
    else (a, x) :: Memory.write m r v

/-- The canonical form: row numbers strictly rising, and no all-false row listed. -/
abbrev Memory.wf (m : Memory) : Prop :=
  m.Pairwise (fun x y => x.1 < y.1) ∧ ∀ e ∈ m, e.2 ≠ Row.clear

/-- `rowCount`, a function of `MODE` (R14). -/
def State.rowCount (s : State) : Nat := s.mode.rowCount

/-- `MemRead(r, 1)` (R8, R34). -/
def State.memRead (s : State) (r : Nat) : Row := s.shadow.read r

/-- `MemWrite(r, 1, v)` (R8, R32, R34): all four columns of row `r`, and no other row. -/
def State.memWrite (s : State) (r : Nat) (v : Row) : State := { s with shadow := s.shadow.write r v }

/-- The lookahead read of a write to row `offset` (R35). -/
def State.lookahead (s : State) (offset : Nat) : Bool × Bool :=
  if offset + 1 < s.rowCount then ((s.memRead (offset + 1)).c0, (s.memRead (offset + 1)).c1) else (false, false)

/-- `subst(row, k, v)`: column `k` replaced (R33). -/
def Row.subst (row : Row) (k : Nat) (v : Bool) : Row where
  c0 := if k = 0 then v else row.c0
  c1 := if k = 1 then v else row.c1
  c2 := if k = 2 then v else row.c2
  c3 := if k = 3 then v else row.c3

/-! ### Ports and the sequencer -/

/-- Something leaves the block at an output port. -/
def State.emit (s : State) (e : Event) : State := { s with log := s.log ++ [e] }

/-- The end of an ACCEPT step that passed validation: `QUEUE` and `RESP` are loaded (R73). -/
def State.load (s : State) (actions : List Action) (r : Response) : State :=
  { s with queue := actions, resp := some r }

/-- The end of an ACCEPT step that failed validation: `Err(INVALID_ARGUMENT)` now, and nothing else (R73, R88). -/
def State.respondInvalid (s : State) : State := s.emit (.response .invalidArgument)

/-- The encoder's result appears at its output. -/
def State.sampled (s : State) (r : EncResult) : State := { s with encOut := some r }

/-- The transport action of an encoder result. The controller calls the encoder only with operands it has checked, so the
result is a word (R89). -/
def txOf : EncResult → List Action
  | .ok w => [.tx w]
  | .invalidArgument => []
  | .outOfRange => []

/-! ### Faults and reset -/

/-- `fault F` (R8, R93): `FAULT` is written, once; a fault register that is not `NONE` keeps its value (R20). -/
def State.takeFault (s : State) (c : FaultCode) : State :=
  if s.fault = .none then { s with fault := c } else s

/-- The block's reset input (R102): the block is as after power-on, a held request is dropped, an action in flight is
abandoned, and nothing is sent. No other way leads out of a fault (R93, R98). -/
def State.applyReset (s : State) : State :=
  { State.resetWith s.params with
    requester := s.requester
    transport := s.transport
    schedule := s.schedule
    abandoned := s.abandoned ++ s.inflight.toList.map fun a => ⟨a, s.rowCount⟩
    log := s.log
    encOut := s.encOut
    chip := s.chip }

/-- The lifecycle check of a request other than `INIT` (R73, R91), then the request. -/
def whenReady (s : State) (request : State → State) : Host.Outcome State Fault Refusal :=
  if s.life = .uninit then .next (s.takeFault .notReady) else .next (request s)

/-! ### The row-write path -/

/-- `WRITE_ADDR`'s row-write path, the one channel by which a row changes after `INIT` (R28): the row is written, the
lookahead is read, the word is built (R81, R106). -/
def State.writeRow (s : State) (o : Nat) (row : Row) : State × List Action :=
  let t := s.memWrite o row
  let la := t.lookahead o
  (t, txOf (encWrite s.rowCount o row.c0 row.c1 row.c2 row.c3 la.1 la.2))

/-- Row writes of all-false, one after another, each seeing the rows the earlier ones left (R60, R83). -/
def State.clearRows (s : State) : List Nat → State × List Action
  | [] => (s, [])
  | i :: rest =>
    let one := s.writeRow i .clear
    let more := one.1.clearRows rest
    (more.1, one.2 ++ more.2)

/-- Accept a write of one row: its word is queued and `Ok` is owed (R81, R82). -/
def State.acceptRow (s : State) (o : Nat) (row : Row) : State :=
  let w := s.writeRow o row
  w.1.load w.2 .ok

end Sys2Proof.Machine
end

