-- ==== Sys2Proof/Machine/Chip.lean ====
section
/-! DEFINITION. The reference model of the chip's display RAM, for observations (R45; decisions D27, D28). It is ASSUMED by
the spec and is no part of the block. -/

namespace Sys2Proof.Machine

/-- The row of chip RAM that a draw of free values gives. -/
def freeRow (draw r : Nat) : Row where
  c0 := Config.freeChipCell draw r 0
  c1 := Config.freeChipCell draw r 1
  c2 := Config.freeChipCell draw r 2
  c3 := Config.freeChipCell draw r 3

/-- `CHIP[r]`. -/
def Chip.read (c : Chip) (r : Nat) : Row :=
  match c.rows.find? (fun e => e.1 == r) with
  | some e => e.2
  | none => freeRow c.base r

/-- `CHIP[r] <- v`. -/
def Chip.write (c : Chip) (r : Nat) (v : Row) : Chip :=
  { c with rows := (r, v) :: c.rows.filter (fun e => e.1 != r) }

/-- Every cell of `CHIP` becomes unconstrained: a fresh draw of free values. -/
def Chip.unconstrain (c : Chip) : Chip := { base := c.draws, draws := c.draws + 1, rows := [] }

/-- The lookahead pre-stage: columns 0 and 1 of a row are set, columns 2 and 3 keep their values. -/
def Chip.prestage (c : Chip) (r : Nat) (l0 l1 : Bool) : Chip :=
  c.write r { c.read r with c0 := l0, c1 := l1 }

/-- Columns 0 and 1 of row 0 become unconstrained (`LAST_ROW_LOOKAHEAD_TARGET = unknown`). -/
def Chip.loseRow0 (c : Chip) : Chip :=
  { c.prestage 0 (Config.freeChipCell c.draws 0 0) (Config.freeChipCell c.draws 0 1) with draws := c.draws + 1 }

/-- The `ADDR` field of a write word (R49). -/
def addrOf (w : Word) : Nat := (w.extractLsb 12 6).toNat

/-- The data columns of a write word (R49). -/
def rowOf (w : Word) : Row := ⟨w.getLsbD 5, w.getLsbD 4, w.getLsbD 3, w.getLsbD 2⟩

/-- `chipApply(CHIP, w)` (R45). -/
def chipApply (target : LastRowTarget) (rowCount : Nat) (c : Chip) (w : Word) : Chip :=
  if isWriteWord w then
    let a := addrOf w
    let c := c.write a (rowOf w)
    if a + 1 < rowCount then c.prestage (a + 1) (w.getLsbD 1) (w.getLsbD 0)
    else match target with
      | .none => c
      | .row0 => c.prestage 0 (w.getLsbD 1) (w.getLsbD 0)
      | .unknown => c.loseRow0
  else c

/-- What the completion of an action does to chip RAM (R45): a `Tx(w)` that completes `ok` applies `chipApply`, one that
completes `error` makes every cell unconstrained, and no other action touches it. -/
def Chip.completed (target : LastRowTarget) (rowCount : Nat) (c : Chip) (a : Action) (status : Completion) : Chip :=
  match a, status with
  | .tx w, .ok _ => chipApply target rowCount c w
  | .tx _, .error => c.unconstrain
  | .openDev _, _ => c
  | .setClock _, _ => c

end Sys2Proof.Machine
end

