-- ==== Sys2Proof/Machine/ConfigRequests.lean ====
section
/-! DEFINITION. The meanings of the configuration requests, each the ACCEPT step of R73 for its kind (R74 to R79). -/

namespace Sys2Proof.Machine

/-- The bring-up sequence, seven `Tx` actions in a fixed order (R75, R106). -/
def bringUp (p : Params) (m : Mode) : List Action :=
  txOf (encSysDis p) ++ txOf (encMode m.word.toNat) ++ txOf (encMaster p) ++ txOf (encSysEn p) ++ txOf (encLedOn p)
    ++ txOf (encPwm p pwmDefault.toNat) ++ txOf (encBlinkOff p)

/-- The WRITES, ACTIONS and RESPONSE of an accepted `INIT` (R74, R104). `MemWrite` of all-false to every row leaves the
map with no row listed. Chip RAM is unconstrained at `INIT` (R45, log 8). -/
def State.acceptInit (s : State) (m : Mode) : State :=
  { s with
    mode := m
    life := .ready
    shadow := []
    blink := false
    pwm := pwmDefault
    chip := s.chip.unconstrain }.load
      (.openDev s.params.device :: .setClock clockHz :: bringUp s.params m) .ok

/-- `INIT [mode]` (R74, R92). -/
def execInit (mode : Option Val) (s : State) : Host.Outcome State Fault Refusal :=
  if s.life = .ready then .next (s.takeFault .reinit)
  else match modeOperand mode with
    | some m => .next (s.acceptInit m)
    | none => .next s.respondInvalid

/-- `GET_BLINK` (R76). -/
def execGetBlink (s : State) : Host.Outcome State Fault Refusal :=
  whenReady s fun s => s.load [] (.okBool s.blink)

/-- `SET_BLINK enabled` (R77). -/
def execSetBlink (enabled : Val) (s : State) : Host.Outcome State Fault Refusal :=
  whenReady s fun s => match boolOperand enabled with
    | some b => { s with blink := b }.load (txOf (if b then encBlinkOn s.params else encBlinkOff s.params)) .ok
    | none => s.respondInvalid

/-- `GET_PWM` (R78). -/
def execGetPwm (s : State) : Host.Outcome State Fault Refusal :=
  whenReady s fun s => s.load [] (.okLevel s.pwm)

/-- `SET_PWM level` (R79). -/
def execSetPwm (level : Val) (s : State) : Host.Outcome State Fault Refusal :=
  whenReady s fun s => match levelOperand level with
    | some n => { s with pwm := n }.load (txOf (encPwm s.params n.toNat)) .ok
    | none => s.respondInvalid

end Sys2Proof.Machine
end

