-- ==== Sys2Proof/Machine/EncoderCalls.lean ====
section
/-! DEFINITION. The meanings of the ten word rows: a call of the encoder function the row's rule names. The encoder reads
no register but `MODE` (for `ENC_WRITE`'s `rowCount`), writes none and emits nothing (R62); its result appears at the
sampled output (log 6). -/

namespace Sys2Proof.Machine

/-- `ENC_SYS_DIS()` (R63). -/
def execSysDis (s : State) : Host.Outcome State Fault Refusal := .next (s.sampled (encSysDis s.params))

/-- `ENC_SYS_EN()` (R64). -/
def execSysEn (s : State) : Host.Outcome State Fault Refusal := .next (s.sampled (encSysEn s.params))

/-- `ENC_LED_ON()` (R65). -/
def execLedOn (s : State) : Host.Outcome State Fault Refusal := .next (s.sampled (encLedOn s.params))

/-- `ENC_LED_OFF()` (R66). -/
def execLedOff (s : State) : Host.Outcome State Fault Refusal := .next (s.sampled (encLedOff s.params))

/-- `ENC_BLINK_ON()` (R67). -/
def execBlinkOn (s : State) : Host.Outcome State Fault Refusal := .next (s.sampled (encBlinkOn s.params))

/-- `ENC_BLINK_OFF()` (R68). -/
def execBlinkOff (s : State) : Host.Outcome State Fault Refusal := .next (s.sampled (encBlinkOff s.params))

/-- `ENC_MASTER()` (R69). -/
def execMaster (s : State) : Host.Outcome State Fault Refusal := .next (s.sampled (encMaster s.params))

/-- `ENC_MODE(m)` (R70). -/
def execMode (m : Int) (s : State) : Host.Outcome State Fault Refusal := .next (s.sampled (encMode m))

/-- `ENC_PWM(level)` (R71). -/
def execPwm (level : Int) (s : State) : Host.Outcome State Fault Refusal := .next (s.sampled (encPwm s.params level))

/-- `ENC_WRITE(rowCount, …)` with `rowCount` from `MODE` (R72). -/
def execWrite (offset : Int) (d0 d1 d2 d3 la0 la1 : Bool) (s : State) : Host.Outcome State Fault Refusal :=
  .next (s.sampled (encWrite s.rowCount offset d0 d1 d2 d3 la0 la1))

end Sys2Proof.Machine
end

