-- ==== Sys2Proof/Machine/MemoryRequests.lean ====
section
/-! DEFINITION. The meanings of the memory requests, each the ACCEPT step of R73 for its kind (R81 to R84). -/

namespace Sys2Proof.Machine

/-- `WRITE_ADDR offset, d0, d1, d2, d3` (R81). -/
def execWriteAddr (offset d0 d1 d2 d3 : Val) (s : State) : Host.Outcome State Fault Refusal :=
  whenReady s fun s => match indexOperand s.rowCount offset, rowOperand d0 d1 d2 d3 with
    | some o, some row => s.acceptRow o row
    | _, _ => s.respondInvalid

/-- `WRITE_LED offset, ledIndex, value` (R82): the row read, one column replaced, then as `WRITE_ADDR` (R31, R60). -/
def execWriteLed (offset ledIndex value : Val) (s : State) : Host.Outcome State Fault Refusal :=
  whenReady s fun s => match indexOperand s.rowCount offset, ledOperand ledIndex, boolOperand value with
    | some o, some k, some v => s.acceptRow o ((s.memRead o).subst k v)
    | _, _, _ => s.respondInvalid

/-- `CLEAR` (R83): every row in ascending order, each as `WRITE_ADDR i, false, false, false, false` (R60). -/
def execClear (s : State) : Host.Outcome State Fault Refusal :=
  whenReady s fun s =>
    let all := s.clearRows (List.range s.rowCount)
    all.1.load all.2 .ok

/-- `READ_MAP` (R84). -/
def execReadMap (s : State) : Host.Outcome State Fault Refusal :=
  whenReady s fun s => s.load [] (.okMap ((List.range s.rowCount).map s.memRead))

end Sys2Proof.Machine
end

