-- ==== Sys2Proof/Machine/Dispatch.lean ====
section
/-! DEFINITION. The meaning of each operation of the opcode table. -/

namespace Sys2Proof.Machine

def exec (i : Instr) (s : State) : Host.Outcome State Fault Refusal :=
  match i with
  | .sysDis => Sys2Proof.Machine.execSysDis s
  | .sysEn => Sys2Proof.Machine.execSysEn s
  | .ledOn => Sys2Proof.Machine.execLedOn s
  | .ledOff => Sys2Proof.Machine.execLedOff s
  | .blinkOn => Sys2Proof.Machine.execBlinkOn s
  | .blinkOff => Sys2Proof.Machine.execBlinkOff s
  | .master => Sys2Proof.Machine.execMaster s
  | .mode m => Sys2Proof.Machine.execMode m s
  | .pwm level => Sys2Proof.Machine.execPwm level s
  | .write offset d0 d1 d2 d3 la0 la1 => Sys2Proof.Machine.execWrite offset d0 d1 d2 d3 la0 la1 s
  | .init mode => Sys2Proof.Machine.execInit mode s
  | .getBlink => Sys2Proof.Machine.execGetBlink s
  | .setBlink enabled => Sys2Proof.Machine.execSetBlink enabled s
  | .getPwm => Sys2Proof.Machine.execGetPwm s
  | .setPwm level => Sys2Proof.Machine.execSetPwm level s
  | .writeAddr offset d0 d1 d2 d3 => Sys2Proof.Machine.execWriteAddr offset d0 d1 d2 d3 s
  | .writeLed offset ledIndex value => Sys2Proof.Machine.execWriteLed offset ledIndex value s
  | .clear => Sys2Proof.Machine.execClear s
  | .readMap => Sys2Proof.Machine.execReadMap s

end Sys2Proof.Machine
end

