-- ==== Sys2Proof/Machine/Sequencer.lean ====
section
/-! DEFINITION. The request sequencer and the agents around it: the ISSUE, COMPLETE and DELIVER steps of R73, the
transport's completions (R44, R90, R94), the requester (R23), and what a completion after a reset does (R102). -/

namespace Sys2Proof.Machine

/-- The block is idle (R19). -/
abbrev State.idle (s : State) : Prop := s.queue = [] ∧ s.inflight = none ∧ s.resp = none

/-- The transport call of an action (R44); a word goes out as its two bytes, high byte first (R37). -/
def Action.call (a : Action) (handle : Handle) : TransportCall :=
  match a with
  | .openDev dev => .openDev dev
  | .setClock hz => .setClockRate handle hz
  | .tx w => .transmit handle w.hiByte w.loByte

/-- ISSUE (R73): the head of `QUEUE` goes into flight and to the transport. -/
def State.issue (s : State) (a : Action) (rest : List Action) : State :=
  { s with inflight := some a, queue := rest }.emit (.call (a.call s.handle))

/-- DELIVER (R73): the response port delivers the response owed. -/
def State.deliver (s : State) (r : Response) : State := { s with resp := none }.emit (.response r)

/-- COMPLETE (R44, R73): the transport completes the action in flight. A `Tx` that fails is reported and changes nothing else
of the block (R90); an `Open` or `SetClock` that fails faults (R94). Once the block has faulted, a completion changes
nothing of it but `INFLIGHT`, and reports a failed `Tx` (R93). The chip follows R45. -/
def State.complete (s : State) (a : Action) (c : Completion) : State :=
  let t := { s with inflight := none, chip := s.chip.completed s.params.lastRowTarget s.rowCount a c }
  match a, c with
  | .openDev _, .ok h => if s.fault = .none then { t with handle := h } else t
  | .openDev _, .error => t.takeFault .openFailed
  | .setClock _, .ok _ => t
  | .setClock _, .error => t.takeFault .openFailed
  | .tx _, .ok _ => t
  | .tx w, .error => t.emit (.report w)

/-- What the block does next, if it takes a step. -/
inductive BlockStep where
  /-- Run the operation presented: ACCEPT a request, or evaluate a bench's encoder call. -/
  | run (i : Instr)
  | issue (a : Action) (rest : List Action)
  | deliver (r : Response)
deriving DecidableEq, Repr

/-- The step of the request cycle that is enabled, at most one (R73): none while an action is in flight (R41, R113) or once
`FAULT` is not `NONE` (R93); a request is accepted only when the block is idle (R23). -/
def State.cycleStep (s : State) : Option BlockStep :=
  if s.fault ≠ .none ∨ s.inflight ≠ none then none
  else match s.queue, s.resp with
    | a :: rest, _ => some (.issue a rest)
    | [], some r => some (.deliver r)
    | [], none => s.port.map .run

/-- The block's next step. An encoder call does not wait: the encoder is combinational, apart from the sequencer (R62). -/
def State.blockStep (s : State) : Option BlockStep :=
  match s.port with
  | some i => if i.isEncoderCall then some (.run i) else s.cycleStep
  | none => s.cycleStep

/-- The transport completes the action in flight, if there is one and the transport completes at all (R44, R100). -/
def State.transportStep (s : State) : Option State :=
  match s.inflight, s.transport with
  | some a, c :: rest => some ({ s with transport := rest }.complete a c)
  | _, _ => none

/-- The requester presents its next operation, if the port is free; one record at a time is on the port (R23). -/
def State.requesterStep (s : State) : Option State :=
  match s.port, s.requester with
  | none, i :: rest => some { s with port := some i, requester := rest }
  | _, _ => none

/-- The transport completes the `n`-th abandoned action: the block ignores it (R102), and the chip, which is no part of the
block, takes its word as R45 says of every completion, by the row count the word was built for (log 9). The spec gives the
abandoned actions no order of completion; DESIGN CHOICE (log 22): `n` is whatever the schedule says, so none is fixed. -/
def State.staleStep (n : Nat) (s : State) : Option State :=
  match s.abandoned[n]?, s.transport with
  | some a, c :: more => some { s with
      abandoned := s.abandoned.eraseIdx n
      transport := more
      chip := s.chip.completed s.params.lastRowTarget a.rowCount a.action c }
  | _, _ => none

/-- The fault a run stops with, for the value of `FAULT` (R93). -/
def FaultCode.stop : FaultCode → Option Fault
  | .none => Option.none
  | .notReady => some .notReady
  | .reinit => some .reinit
  | .openFailed => some .openFailed

/-- Place an operation where the next step runs it: on the port, with no turn scheduled before the block's. -/
def State.present (s : State) (i : Instr) : State := { s with port := some i, schedule := [] }

end Sys2Proof.Machine
end

