-- ==== Sys2Proof/Machine/Step.lean ====
section
/-! DEFINITION. One step of the machine: one agent's move (R22). The steps of the block and of the transport never compete
(R73), so the schedule decides only when the requester, a reset or an abandoned action's completion comes between. -/

namespace Sys2Proof.Machine

/-- The block's move, if it takes a step (R73). -/
def blockMove (s : State) : Option (Host.Outcome State Fault Refusal) :=
  match s.blockStep with
  | none => none
  | some (.run i) => some (exec i { s with port := none })
  | some (.issue a rest) => some (.next (s.issue a rest))
  | some (.deliver r) => some (.next (s.deliver r))

/-- A scheduled move; an agent that cannot move leaves the state as it is. -/
def runMove (m : Move) (s : State) : Host.Outcome State Fault Refusal :=
  match m with
  | .block => (blockMove s).getD (.next s)
  | .transport => .next (s.transportStep.getD s)
  | .requester => .next (s.requesterStep.getD s)
  | .stale n => .next ((s.staleStep n).getD s)
  | .reset => .next s.applyReset

/-- With nothing scheduled, the block moves if it can, else the transport, else the requester. If none can, a block that has
not faulted waits (R100, R102), and the run of one that has is a failed run (R93). -/
def defaultMove (s : State) : Host.Outcome State Fault Refusal :=
  match blockMove s with
  | some o => o
  | none =>
    match s.transportStep with
    | some t => .next t
    | none =>
      match s.requesterStep with
      | some t => .next t
      | none =>
        match s.fault.stop with
        | some f => .fault f
        | none => .next s

/-- One step. -/
def step (s : State) : Host.Outcome State Fault Refusal :=
  match s.schedule with
  | m :: rest => runMove m { s with schedule := rest }
  | [] => defaultMove s

/-- The state in which the very next step runs the operation that the decoder reads from the table bits `w`. No program is
in the machine (R21, R46): an operation is presented from outside, and this stands for that (log 10). A word that decodes
to nothing presents nothing. -/
def State.withFetchWord (s : State) (nbits w : Nat) : State :=
  match decodeTableWord nbits w with
  | some i => s.present i
  | none => s

end Sys2Proof.Machine
end

