-- ==== Sys2Proof/Safety.lean ====
section
/-! DEFINITION. The terms the claims are stated in: the invariant of the machine, the bad operands of a request (R87), the
words the block may emit (R55, R57), shadow consistency (R27) and agreement with the reference chip (R85). -/

namespace Sys2Proof

/-- The causes of `INVALID_ARGUMENT` (R87), by the request and the row count. -/
def Instr.hasBadOperand (rowCount : Nat) : Instr → Prop
  | .init m => ∃ v, m = some v ∧ v ∉ [.vInt 0x8400, .vInt 0x8480, .vInt 0x8500, .vInt 0x8580]
  | .setBlink enabled => ∀ b, enabled ≠ .vBool b
  | .setPwm level => ∀ n : Int, 0 ≤ n → n ≤ 15 → level ≠ .vInt n
  | .writeAddr offset d0 d1 d2 d3 =>
    (∀ n : Int, 0 ≤ n → n < rowCount → offset ≠ .vInt n) ∨ ∃ d ∈ [d0, d1, d2, d3], ∀ b, d ≠ .vBool b
  | .writeLed offset ledIndex value =>
    (∀ n : Int, 0 ≤ n → n < rowCount → offset ≠ .vInt n) ∨ (∀ k : Int, 0 ≤ k → k ≤ 3 → ledIndex ≠ .vInt k)
      ∨ ∀ b, value ≠ .vBool b
  | .getBlink | .getPwm | .clear | .readMap => False
  | .sysDis | .sysEn | .ledOn | .ledOff | .blinkOn | .blinkOff | .master => False
  | .mode _ | .pwm _ | .write _ _ _ _ _ _ _ => False

end Sys2Proof

namespace Sys2Proof.Machine

/-- Of two actions of one request, `a` may come before `b`: `Open`, then `SetClock`, then words (R75). -/
def Action.before (a b : Action) : Prop :=
  (∃ w, b = .tx w) ∨ ∃ dev hz, a = .openDev dev ∧ b = .setClock hz

/-- What holds of every state the machine can reach, whatever the agents do. -/
structure State.Inv (s : State) : Prop where
  /-- The shadow map is in canonical form. -/
  shadow_wf : s.shadow.wf
  /-- Only the rows `0 .. rowCount−1` exist (R15). -/
  shadow_rows : ∀ e ∈ s.shadow, e.1 < s.rowCount
  /-- Before `INIT` the block has no request in hand (R91, R102). -/
  uninit_idle : s.life = .uninit → s.idle
  /-- While actions remain, a response is owed (R24, R73). -/
  busy_owes : s.queue ≠ [] ∨ s.inflight ≠ none → s.resp ≠ none
  /-- `HANDLE` is written before an action that reads it is issued, and `OPEN_FAILED` comes before any word (R96). -/
  in_order : (s.inflight.toList ++ s.queue).Pairwise Action.before
  /-- `NOT_READY` faults come before `INIT`, with no request in hand (R91). -/
  notReady_uninit : s.fault = .notReady → s.life = .uninit
  /-- `REINIT` faults come after `INIT`, with no request in hand (R92). -/
  reinit_ready : s.fault = .reinit → s.life = .ready ∧ s.idle
  /-- `OPEN_FAILED` faults come while an `INIT` is in hand (R94). -/
  openFailed_ready : s.fault = .openFailed → s.life = .ready ∧ s.resp ≠ none

/-- A request is in its place in the lifecycle: `INIT` first, every other one after it (R80). -/
def State.admits (s : State) : Instr → Prop
  | .init _ => s.life = .uninit
  | _ => s.life = .ready

/-- The words the block emits in mode `m` (R55, R57): every fixed word but `CMD_LED_OFF`, the mode word, the PWM words, and
the write words of an existing row, the last one's lookahead bits 0. -/
def Emitted (p : Params) (m : Mode) (w : Word) : Prop :=
  w ∈ [p.cmdSysDis, p.cmdSysEn, p.cmdLedOn, p.cmdBlinkOn, p.cmdBlinkOff, p.cmdMaster] ∨ w = m.word
    ∨ (∃ l < 16, w = BitVec.ofNat 16 (p.pwmBase + l * p.pwmStep))
    ∨ ∃ a d0 d1 d2 d3 la0 la1, a < m.rowCount ∧ (a + 1 = m.rowCount → la0 = false ∧ la1 = false)
        ∧ w = writeLayout (BitVec.ofNat 7 a) d0 d1 d2 d3 la0 la1

/-- Every word in hand is one the block may emit. -/
def State.OnlyEmitted (s : State) : Prop :=
  ∀ w, .tx w ∈ s.inflight.toList ++ s.queue → Emitted s.params s.mode w

/-- The words of a list of actions, in order. -/
def txWords (as : List Action) : List Word := as.filterMap fun
  | .tx w => some w
  | .openDev _ => none
  | .setClock _ => none

/-- The action a transport call carries out. -/
def TransportCall.action : TransportCall → Action
  | .openDev dev => .openDev dev
  | .setClockRate _ hz => .setClock hz
  | .transmit _ first second => .tx (wordOfBytes first second)

/-- The action an event of the log issued, if any. -/
def Event.action : Event → Option Action
  | .call c => some c.action
  | .response _ => none
  | .report _ => none

/-- Every action issued so far and every action still to be issued, in order (R40). -/
def State.history (s : State) : List Action := s.log.filterMap Event.action ++ s.queue

/-- Row `r` after one more action was built: `INIT`, whose first action is `Open`, makes it all-false; a write word that
addresses `r` makes it the word's columns (R27). -/
def builtStep (r : Nat) (row : Row) : Action → Row
  | .openDev _ => .clear
  | .setClock _ => row
  | .tx w => if isWriteWord w ∧ addrOf w = r then rowOf w else row

/-- The columns of the last write word built for row `r` since `INIT`, or all-false if there is none (R27). -/
def lastBuilt (as : List Action) (r : Nat) : Row := as.foldl (builtStep r) .clear

/-- Shadow consistency (R27). -/
def State.ShadowConsistent (s : State) : Prop :=
  s.life = .ready → ∀ r < s.rowCount, s.memRead r = lastBuilt s.history r

/-- The reference chip agrees with the shadow map on every row that exists (R85). -/
def State.Agrees (s : State) : Prop := ∀ r < s.rowCount, s.chip.read r = s.memRead r

/-- Two states alike but for the registers that hold no value before `INIT` (R103). -/
def State.SameButUnset (s t : State) : Prop :=
  s = { t with mode := s.mode, shadow := s.shadow, blink := s.blink, pwm := s.pwm, handle := s.handle }

/-- No bench has an encoder call at the port, so a step is a step of the block or of the agents around it. -/
abbrev State.noCall (s : State) : Prop := ∀ i, s.port = some i → i.isEncoderCall = false

end Sys2Proof.Machine
end

