-- ==== Sys2Proof/Certificates/Slice0/Obligations.lean ====
section
/-! DEFINITION. The statements for the provers. A statement about every state is one about every choice of the OPEN
parameters, which a state carries (log 4), and about every behaviour of the agents around the block. -/

open Sys2Proof Sys2Proof.Machine

/-! ### The Command Encoder -/

/-- R63 to R69: each of the seven constant functions returns its parameter, and in the reference configuration the word of
the rule's example. -/
def Obligations.FixedWordFunctionsReturnTheirParameters : Prop :=
  (∀ p : Params,
    encSysDis p = .ok p.cmdSysDis ∧ encSysEn p = .ok p.cmdSysEn ∧ encLedOn p = .ok p.cmdLedOn
      ∧ encLedOff p = .ok p.cmdLedOff ∧ encBlinkOn p = .ok p.cmdBlinkOn ∧ encBlinkOff p = .ok p.cmdBlinkOff
      ∧ encMaster p = .ok p.cmdMaster)
    ∧ encSysDis .reference = .ok 0x8000 ∧ encSysEn .reference = .ok 0x8020 ∧ encLedOn .reference = .ok 0x8060
    ∧ encLedOff .reference = .ok 0x8040 ∧ encBlinkOn .reference = .ok 0x8120 ∧ encBlinkOff .reference = .ok 0x8100
    ∧ encMaster .reference = .ok 0x8300

/-- Every encoder call completes in every state: the encoder function's result is sampled, and nothing else changes
(R62, R72's `rowCount` from `MODE`). The sampled output is the model's own (log 6). -/
def Obligations.EncoderCallsCompleteInEveryState : Prop :=
  ∀ s : State,
    exec .sysDis s = .next { s with encOut := some (.ok s.params.cmdSysDis) }
      ∧ exec .sysEn s = .next { s with encOut := some (.ok s.params.cmdSysEn) }
      ∧ exec .ledOn s = .next { s with encOut := some (.ok s.params.cmdLedOn) }
      ∧ exec .ledOff s = .next { s with encOut := some (.ok s.params.cmdLedOff) }
      ∧ exec .blinkOn s = .next { s with encOut := some (.ok s.params.cmdBlinkOn) }
      ∧ exec .blinkOff s = .next { s with encOut := some (.ok s.params.cmdBlinkOff) }
      ∧ exec .master s = .next { s with encOut := some (.ok s.params.cmdMaster) }
      ∧ (∀ m, exec (.mode m) s = .next { s with encOut := some (encMode m) })
      ∧ (∀ l, exec (.pwm l) s = .next { s with encOut := some (encPwm s.params l) })
      ∧ ∀ o d0 d1 d2 d3 la0 la1, exec (.write o d0 d1 d2 d3 la0 la1) s
          = .next { s with encOut := some (encWrite s.mode.rowCount o d0 d1 d2 d3 la0 la1) }

/-- R70: `ENC_MODE` is the identity on the four mode constants and refuses every other integer, 0x8401 and 0x8600 too; of a
mode's word it never fails, and the word has `PMOS` at bit 8 and `COM16` at bit 7. -/
def Obligations.EncModeIsTheIdentityOnTheModeConstants : Prop :=
  (∀ m ∈ ([0x8400, 0x8480, 0x8500, 0x8580] : List Int), ∃ w, encMode m = .ok w ∧ (w.toNat : Int) = m)
    ∧ (∀ m ∉ ([0x8400, 0x8480, 0x8500, 0x8580] : List Int), encMode m = .invalidArgument)
    ∧ ∀ k : Mode, encMode k.word.toNat = .ok k.word ∧ k.word.getLsbD 8 = k.pmos ∧ k.word.getLsbD 7 = k.com16

/-- R71: `ENC_PWM` of a level of 0 to 15 is the masked sum, any other level is refused; and, under the constraint of R6, the
mask has no effect and no two levels share a word (R54). In the reference configuration the words are the rule's. -/
def Obligations.EncPwmIsBasePlusLevelTimesStep : Prop :=
  (∀ (p : Params) (level : Int),
    (0 ≤ level → level ≤ 15 →
      encPwm p level = .ok (BitVec.ofNat 16 (p.pwmBase + level.toNat * p.pwmStep))
        ∧ (p.Valid → (BitVec.ofNat 16 (p.pwmBase + level.toNat * p.pwmStep)).toNat = p.pwmBase + level.toNat * p.pwmStep
            ∧ ∀ other : Int, encPwm p other = encPwm p level → other = level))
      ∧ (level < 0 ∨ 15 < level → encPwm p level = .invalidArgument))
    ∧ encPwm .reference 15 = .ok 0x95E0 ∧ encPwm .reference 0 = .ok 0x9400 ∧ encPwm .reference 16 = .invalidArgument

/-- R72: `ENC_WRITE` is `0b101 ++ zext_7(offset) ++ d0 d1 d2 d3 ++ la0 la1` for an offset that exists, with the lookahead bits
0 at the last row whatever they are given, and `OUT_OF_RANGE` for any other integer offset. -/
def Obligations.EncWriteIsTheFieldLayout : Prop :=
  ∀ (rowCount : Nat) (offset : Int) (d0 d1 d2 d3 la0 la1 : Bool), rowCount = 64 ∨ rowCount = 96 →
    (0 ≤ offset → offset + 1 < rowCount →
      encWrite rowCount offset d0 d1 d2 d3 la0 la1
        = .ok (writeLayout (BitVec.ofNat 7 offset.toNat) d0 d1 d2 d3 la0 la1))
      ∧ (offset + 1 = rowCount →
        encWrite rowCount offset d0 d1 d2 d3 la0 la1
          = .ok (writeLayout (BitVec.ofNat 7 offset.toNat) d0 d1 d2 d3 false false))
      ∧ (offset < 0 ∨ rowCount ≤ offset → encWrite rowCount offset d0 d1 d2 d3 la0 la1 = .outOfRange)

/-- R54 and R57: no write word exceeds 0xB7FC, none with a lookahead bit set exceeds 0xB7BF; in the 8-COM modes the bounds
are 0xAFFC and 0xAFBF. -/
def Obligations.WriteWordsAreBounded : Prop :=
  ∀ (offset : Int) (d0 d1 d2 d3 la0 la1 : Bool) (w : Word),
    (encWrite 96 offset d0 d1 d2 d3 la0 la1 = .ok w →
      w.toNat ≤ 0xB7FC ∧ (w.getLsbD 0 = true ∨ w.getLsbD 1 = true → w.toNat ≤ 0xB7BF))
      ∧ (encWrite 64 offset d0 d1 d2 d3 la0 la1 = .ok w →
        w.toNat ≤ 0xAFFC ∧ (w.getLsbD 0 = true ∨ w.getLsbD 1 = true → w.toNat ≤ 0xAFBF))

/-! ### Encoding -/

/-- Decoding the word of a well-formed encoder call gives the call back, operands and all, for every choice of the OPEN
parameters that meets R6's constraints and keeps R56's word sets apart. -/
def Obligations.DecodeOfEncodeIsTheCall : Prop :=
  ∀ (p : Params) (i : Instr) (w : Word), p.Valid → p.Separated → i.wf = true → encode p i = some w → decode p w = .ok i

/-- Every word that decodes is the word of what it decodes to, and that is well formed, whatever the parameters. -/
def Obligations.EncodeOfDecodeIsTheWord : Prop :=
  ∀ (p : Params) (i : Instr) (w : Word), decode p w = .ok i → i.wf = true ∧ i.isEncoderCall = true ∧ encode p i = some w

/-- R57: in the reference configuration a word whose ID is neither `0b100` nor `0b101` is never emitted, and the decoder
says so by name. -/
def Obligations.OtherIdsAreNotEmitted : Prop :=
  ∀ w : Word, w.extractLsb 15 13 ≠ (0b100 : BitVec 3) → w.extractLsb 15 13 ≠ (0b101 : BitVec 3) →
    decode .reference w = .error (.notEmitted w)

/-- In the reference configuration, words written out bit by bit from R48, R49 and the table decode to the operations they
stand for. The words of `SYS_DIS`, `LED_ON`, `BLINK_ON` and `PWM` 7 rest on the reference values of R6, which are PRESUMED
(log 3). -/
def Obligations.SpelledOutWordsDecode : Prop :=
  decode .reference 0b1000000000000000 = .ok .sysDis
    ∧ decode .reference 0b1000000001100000 = .ok .ledOn
    ∧ decode .reference 0b1000010110000000 = .ok (.mode 0x8580)
    ∧ decode .reference 0b1001010011100000 = .ok (.pwm 7)
    ∧ decode .reference 0b1010000101101001 = .ok (.write 5 true false true false false true)
    ∧ decode .reference 0b1011011111111100 = .ok (.write 95 true true true true false false)
    ∧ decodeBytes .reference [0b10000001, 0b00100000, 0b10000011] = .ok (.blinkOn, [0b10000011])

/-- R37: a `Tx(w)` transmits exactly two bytes, first `w[15:8]`, then `w[7:0]`, in every state; and the two are the word. -/
def Obligations.WordsTravelHighByteFirst : Prop :=
  ∀ (w : Word) (h : Handle), ∃ hi lo : Byte,
    (Action.tx w).call h = .transmit h hi lo ∧ hi.toNat = w.toNat / 256 ∧ lo.toNat = w.toNat % 256
      ∧ wordOfBytes hi lo = w

/-- R13 and R14: the mode word is `0x8400 + 0x100 × PMOS + 0x80 × COM16`, `modeOf` inverts it and is defined on the four mode
constants only, bit 0 is `COM16` and bit 1 `PMOS`, and the row count is 64 or 96. -/
def Obligations.ModeWordsAndRowCounts : Prop :=
  (∀ m : Mode, m.word.toNat = 0x8400 + 0x100 * m.pmos.toNat + 0x80 * m.com16.toNat
      ∧ modeOf m.word.toNat = some m ∧ m.bits.getLsbD 0 = m.com16 ∧ m.bits.getLsbD 1 = m.pmos
      ∧ m.rowCount = if m.com16 = true then 96 else 64)
    ∧ ∀ (n : Int) (m : Mode), modeOf n = some m → (m.word.toNat : Int) = n

/-! ### A step runs the operation presented -/

/-- With no turn scheduled before the block's, a step runs the operation at the port: an encoder call in any state, a request
when the block is idle and has not faulted (R23). That a bench's call waits for nothing is the model's choice (log 6). -/
def Obligations.StepRunsThePresentedOperation : Prop :=
  ∀ (s : State) (i : Instr), s.schedule = [] → s.port = some i →
    (i.isEncoderCall = true ∨ s.idle ∧ s.fault = .none) → step s = exec i { s with port := none }

/-- A step after `withFetchWord` runs what the decoder reads from the word, in every state. That operations are presented
from outside is the model's reading (log 10). -/
def Obligations.StepRunsTheDecodedWord : Prop :=
  ∀ (s : State) (n w : Nat) (i : Instr), decodeTableWord n w = some i →
    step (s.withFetchWord n w) = exec i { s with port := none, schedule := [] }

/-! ### Configuration requests -/

/-- R75: the bring-up sequence is exactly these seven words in this order; in the reference configuration and the default
mode they are the seven the rule lists. -/
def Obligations.BringUpIsTheSevenWords : Prop :=
  (∀ (p : Params) (m : Mode),
    bringUp p m = [.tx p.cmdSysDis, .tx m.word, .tx p.cmdMaster, .tx p.cmdSysEn, .tx p.cmdLedOn,
      .tx (BitVec.ofNat 16 (p.pwmBase + 15 * p.pwmStep)), .tx p.cmdBlinkOff])
    ∧ bringUp .reference defaultMode
        = [.tx 0x8000, .tx 0x8500, .tx 0x8300, .tx 0x8020, .tx 0x8060, .tx 0x95E0, .tx 0x8100]

/-- R74 and R104: an accepted `INIT` with a mode, or with none for `MODE_8PMOS`: what every element of the state becomes. That
chip RAM is drawn anew at this step is the model's reading of R45 (log 8). -/
def Obligations.InitBringsTheBlockUp : Prop :=
  ∀ (s : State) (mode : Option Val) (m : Mode), s.life = .uninit →
    (mode = none ∧ m = ⟨false, true⟩ ∨ mode = some (.vInt m.word.toNat)) →
    ∃ t : State, exec (.init mode) s = .next t
      ∧ t = { s with
          life := .ready
          mode := m
          shadow := t.shadow
          blink := false
          pwm := 15
          queue := .openDev s.params.device :: .setClock 2560000 :: bringUp s.params m
          resp := some .ok
          chip := s.chip.unconstrain }
      ∧ ∀ r, t.memRead r = ⟨false, false, false, false⟩

/-- R76: after `INIT`, `GET_BLINK` owes `OkBool(BLINK)`, with no action and no other change; before, it faults. -/
def Obligations.GetBlinkAnswersTheFlag : Prop :=
  ∀ s : State,
    (s.life = .ready → exec .getBlink s = .next { s with queue := [], resp := some (.okBool s.blink) })
      ∧ (s.life = .uninit → s.fault = .none → exec .getBlink s = .next { s with fault := .notReady })

/-- R77: `SET_BLINK b` sets `BLINK` and queues the one word for `b`, whatever `BLINK` held. -/
def Obligations.SetBlinkSetsTheFlagAndSendsItsWord : Prop :=
  ∀ (s : State) (b : Bool), s.life = .ready → exec (.setBlink (.vBool b)) s = .next
    { s with
      blink := b
      queue := [.tx (if b = true then s.params.cmdBlinkOn else s.params.cmdBlinkOff)]
      resp := some .ok }

/-- R78: after `INIT`, `GET_PWM` owes `OkLevel(PWM)`, with no action and no other change; before, it faults. -/
def Obligations.GetPwmAnswersTheLevel : Prop :=
  ∀ s : State,
    (s.life = .ready → exec .getPwm s = .next { s with queue := [], resp := some (.okLevel s.pwm) })
      ∧ (s.life = .uninit → s.fault = .none → exec .getPwm s = .next { s with fault := .notReady })

/-- R79: `SET_PWM n`, for `n` of 0 to 15, sets `PWM` and queues the one word `PWM_BASE + n × PWM_STEP`. -/
def Obligations.SetPwmSetsTheLevelAndSendsItsWord : Prop :=
  ∀ (s : State) (n : Nat), s.life = .ready → n < 16 → exec (.setPwm (.vInt n)) s = .next
    { s with
      pwm := BitVec.ofNat 4 n
      queue := [.tx (BitVec.ofNat 16 (s.params.pwmBase + n * s.params.pwmStep))]
      resp := some .ok }

/-! ### Memory requests -/

/-- R81: `WRITE_ADDR` of an existing row completes; row `o` becomes the four values and no other row changes; one write word
is queued, its lookahead bits row `o+1`'s columns 0 and 1, or 0 at the last row; nothing else changes. -/
def Obligations.WriteAddrWritesTheRowAndSendsItsWord : Prop :=
  ∀ (s : State) (o : Nat) (b0 b1 b2 b3 : Bool), s.life = .ready → s.shadow.wf → o < s.rowCount → ∃ t : State,
    exec (.writeAddr (.vInt o) (.vBool b0) (.vBool b1) (.vBool b2) (.vBool b3)) s = .next t
      ∧ t.memRead o = ⟨b0, b1, b2, b3⟩ ∧ (∀ r, r ≠ o → t.memRead r = s.memRead r)
      ∧ t.queue = [.tx (if o + 1 < s.rowCount
          then writeLayout (BitVec.ofNat 7 o) b0 b1 b2 b3 (s.memRead (o + 1)).c0 (s.memRead (o + 1)).c1
          else writeLayout (BitVec.ofNat 7 o) b0 b1 b2 b3 false false)]
      ∧ t.resp = some .ok ∧ t = { s with shadow := t.shadow, queue := t.queue, resp := t.resp }

/-- R82 and R33: `WRITE_LED` of an existing LED completes; column `k` of row `o` becomes the value, its other three columns and
every other row are as they were; the queued word is the one for the new row; nothing else changes. -/
def Obligations.WriteLedChangesOneColumn : Prop :=
  ∀ (s : State) (o k : Nat) (v : Bool), s.life = .ready → s.shadow.wf → o < s.rowCount → k < 4 → ∃ t : State,
    exec (.writeLed (.vInt o) (.vInt k) (.vBool v)) s = .next t
      ∧ (t.memRead o).c0 = (if k = 0 then v else (s.memRead o).c0)
      ∧ (t.memRead o).c1 = (if k = 1 then v else (s.memRead o).c1)
      ∧ (t.memRead o).c2 = (if k = 2 then v else (s.memRead o).c2)
      ∧ (t.memRead o).c3 = (if k = 3 then v else (s.memRead o).c3)
      ∧ (∀ r, r ≠ o → t.memRead r = s.memRead r)
      ∧ t.queue = [.tx (if o + 1 < s.rowCount
          then writeLayout (BitVec.ofNat 7 o) (t.memRead o).c0 (t.memRead o).c1 (t.memRead o).c2 (t.memRead o).c3
            (s.memRead (o + 1)).c0 (s.memRead (o + 1)).c1
          else writeLayout (BitVec.ofNat 7 o) (t.memRead o).c0 (t.memRead o).c1 (t.memRead o).c2 (t.memRead o).c3
            false false)]
      ∧ t.resp = some .ok ∧ t = { s with shadow := t.shadow, queue := t.queue, resp := t.resp }

/-- R60: `WRITE_LED o, k, v` does what `WRITE_ADDR o` of the row with column `k` replaced does. -/
def Obligations.WriteLedIsWriteAddrOfTheChangedRow : Prop :=
  ∀ (s : State) (o k : Nat) (v : Bool) (row : Row), o < s.rowCount → k < 4 → row = (s.memRead o).subst k v →
    exec (.writeLed (.vInt o) (.vInt k) (.vBool v)) s
      = exec (.writeAddr (.vInt o) (.vBool row.c0) (.vBool row.c1) (.vBool row.c2) (.vBool row.c3)) s

/-- R83: `CLEAR` completes; every row that exists becomes all-false; the words are those of rows 0, 1, … in ascending order,
word `i` with the columns row `i+1` had before the request, or 0 at the last row; nothing else changes. -/
def Obligations.ClearSendsThePreClearLookahead : Prop :=
  ∀ s : State, s.life = .ready → s.shadow.wf → ∃ t : State,
    exec .clear s = .next t
      ∧ (∀ r < s.rowCount, t.memRead r = ⟨false, false, false, false⟩)
      ∧ (∀ r, s.rowCount ≤ r → t.memRead r = s.memRead r)
      ∧ t.queue = (List.range s.rowCount).map (fun i => .tx (if i + 1 < s.rowCount
          then writeLayout (BitVec.ofNat 7 i) false false false false (s.memRead (i + 1)).c0 (s.memRead (i + 1)).c1
          else writeLayout (BitVec.ofNat 7 i) false false false false false false))
      ∧ t.resp = some .ok ∧ t = { s with shadow := t.shadow, queue := t.queue, resp := t.resp }

/-- R84: after `INIT`, `READ_MAP` owes the `rowCount` rows in order, with no action and no other change; before, it
faults. -/
def Obligations.ReadMapAnswersEveryRow : Prop :=
  ∀ s : State,
    (s.life = .ready → exec .readMap s = .next
      { s with queue := [], resp := some (.okMap ((List.range s.rowCount).map fun r => s.memRead r)) })
      ∧ (s.life = .uninit → s.fault = .none → exec .readMap s = .next { s with fault := .notReady })

/-- V4, over R81 and R84: a `READ_MAP` accepted after a `WRITE_ADDR` answers the row written, and every other row as it was. -/
def Obligations.ReadMapAfterWriteAddrShowsTheRow : Prop :=
  ∀ (s t : State) (o : Nat) (b0 b1 b2 b3 : Bool), s.life = .ready → s.shadow.wf → o < s.rowCount →
    exec (.writeAddr (.vInt o) (.vBool b0) (.vBool b1) (.vBool b2) (.vBool b3)) s = .next t →
    ∃ u rows, exec .readMap t = .next u ∧ u.resp = some (.okMap rows) ∧ rows.length = s.rowCount
      ∧ rows[o]? = some ⟨b0, b1, b2, b3⟩ ∧ ∀ r < s.rowCount, r ≠ o → rows[r]? = some (s.memRead r)

/-! ### Errors and faults of an ACCEPT step -/

/-- R87 and R88: a request in its place in the lifecycle is answered `Err(INVALID_ARGUMENT)` exactly when it has a bad operand,
and then nothing but the response happens; with no bad operand no response leaves yet and one is owed. -/
def Obligations.BadOperandsAreRefusedAndChangeNothing : Prop :=
  ∀ (s : State) (i : Instr), i.isEncoderCall = false → s.admits i →
    (i.hasBadOperand s.rowCount →
      exec i s = .next { s with log := s.log ++ [.response .invalidArgument] })
      ∧ (¬ i.hasBadOperand s.rowCount → ∃ t, exec i s = .next t ∧ t.log = s.log ∧ t.resp ≠ none
          ∧ t.resp ≠ some .invalidArgument)

/-- R91: a request other than `INIT` accepted before `INIT` faults with `NOT_READY`, whatever its operands, and nothing else
changes. -/
def Obligations.RequestsBeforeInitFault : Prop :=
  ∀ (s : State) (i : Instr), i.isEncoderCall = false → (∀ m, i ≠ .init m) → s.life = .uninit → s.fault = .none →
    exec i s = .next { s with fault := .notReady }

/-- R92: an `INIT` accepted after `INIT` faults with `REINIT`, whatever its operand, and every other register keeps its
value. -/
def Obligations.SecondInitFaults : Prop :=
  ∀ (s : State) (m : Option Val), s.life = .ready → s.fault = .none → exec (.init m) s = .next { s with fault := .reinit }

/-- R95: the codes of the statuses, encoder results, faults and the report, and R12's of `LIFE`. R95 lists no code for
`EncOk`; its 0x00 is the model's choice (log 21). -/
def Obligations.CodesAreAsListed : Prop :=
  Response.ok.code = 0x00 ∧ (∀ b, (Response.okBool b).code = 0x00) ∧ (∀ n, (Response.okLevel n).code = 0x00)
    ∧ (∀ rows, (Response.okMap rows).code = 0x00) ∧ Response.invalidArgument.code = 0x01
    ∧ (∀ w, (EncResult.ok w).code = 0x00) ∧ EncResult.invalidArgument.code = 0x01 ∧ EncResult.outOfRange.code = 0x02
    ∧ FaultCode.notReady.code = some 0x10 ∧ FaultCode.reinit.code = some 0x11 ∧ FaultCode.openFailed.code = some 0x12
    ∧ FaultCode.none.code = none ∧ transportErrorCode = 0x20 ∧ Life.uninit.code = 0 ∧ Life.ready.code = 1

/-! ### The sequencer and the transport -/

/-- R73 ISSUE: the head of `QUEUE` goes into flight, its call goes out at the transport port, and nothing else changes. -/
def Obligations.IssueHandsTheHeadToTheTransport : Prop :=
  ∀ (s : State) (a : Action) (rest : List Action), s.schedule = [] → s.noCall → s.fault = .none → s.inflight = none →
    s.queue = a :: rest →
    step s = .next { s with inflight := some a, queue := rest, log := s.log ++ [.call (a.call s.handle)] }

/-- R73 DELIVER: with no action left, the response owed goes out, and nothing else changes. -/
def Obligations.DeliverGivesTheOwedResponse : Prop :=
  ∀ (s : State) (r : Response), s.schedule = [] → s.noCall → s.fault = .none → s.inflight = none → s.queue = [] →
    s.resp = some r → step s = .next { s with resp := none, log := s.log ++ [.response r] }

/-- R44: an `Open`, `SetClock` or `Tx` that completes `ok` clears `INFLIGHT`; an `Open` also writes `HANDLE`, and the reference
chip takes a word as R45 says; nothing else changes. -/
def Obligations.CompletionsClearInflight : Prop :=
  ∀ (s : State) (a : Action) (h : Handle) (rest : List Completion), s.schedule = [] → s.noCall → s.fault = .none →
    s.inflight = some a → s.transport = .ok h :: rest →
    step s = .next { s with
      inflight := none
      transport := rest
      handle := match a with
        | .openDev _ => h
        | .setClock _ => s.handle
        | .tx _ => s.handle
      chip := match a with
        | .tx w => chipApply s.params.lastRowTarget s.rowCount s.chip w
        | .openDev _ => s.chip
        | .setClock _ => s.chip }

/-- R94: an `Open` or a `SetClock` that completes with `error` faults with `OPEN_FAILED`; the action is no longer in flight,
and every other element of the block keeps its value, the unissued actions and the response too. That `INFLIGHT` is
cleared is deduced from R19 (log 14). -/
def Obligations.FailedOpenOrSetClockFaults : Prop :=
  ∀ (s : State) (a : Action) (rest : List Completion), s.schedule = [] → s.noCall → s.fault = .none →
    s.inflight = some a → (∀ w, a ≠ .tx w) → s.transport = .error :: rest →
    step s = .next { s with inflight := none, transport := rest, fault := .openFailed }

/-- R90: a `Tx(w)` that completes with `error` is reported and cleared, no state is rolled back, and the cycle goes on: the
next step issues the next action, or delivers the response. That chip RAM becomes unconstrained is R45's reference model,
held as the model's free values (log 7, DESIGN CHOICE), and no part of R90. -/
def Obligations.FailedTxIsReportedAndTheCycleGoesOn : Prop :=
  ∀ (s : State) (w : Word) (rest : List Completion), s.schedule = [] → s.noCall → s.fault = .none →
    s.inflight = some (.tx w) → s.transport = .error :: rest → ∃ t : State,
    step s = .next t
      ∧ t = { s with
          inflight := none
          transport := rest
          log := s.log ++ [.report w]
          chip := s.chip.unconstrain }
      ∧ (∀ a more, s.queue = a :: more → step t = .next
          { t with inflight := some a, queue := more, log := t.log ++ [.call (a.call s.handle)] })
      ∧ ∀ r, s.queue = [] → s.resp = some r → step t = .next { t with resp := none, log := t.log ++ [.response r] }

/-- R41 and R113: while an action is in flight, no step issues another, delivers a response, takes from `QUEUE` or accepts a
request, whoever moves: all that can leave the block is the report of that action's failure, and only a reset empties
`QUEUE` or drops a request. -/
def Obligations.NoActionIsIssuedWhileOneIsInFlight : Prop :=
  ∀ (s t : State) (a : Action), s.inflight = some a → step s = .next t →
    (t.log = s.log ∨ ∃ w, a = .tx w ∧ t.log = s.log ++ [.report w])
      ∧ (t.inflight = some a ∨ t.inflight = none)
      ∧ (t.queue = s.queue ∧ t.resp = s.resp ∧ (∀ i, s.port = some i → i.isEncoderCall = false → t.port = some i)
        ∨ ∃ rest, s.schedule = .reset :: rest)

/-- R23: a request presented is accepted only when the block is idle and has not faulted; otherwise it is held at the port,
unchanged, by every step but a reset. -/
def Obligations.RequestsAreHeldUntilTheBlockIsIdle : Prop :=
  ∀ (s t : State) (i : Instr), s.port = some i → i.isEncoderCall = false → step s = .next t →
    (s.idle ∧ s.fault = .none ∧ exec i { s with port := none, schedule := s.schedule.tail } = .next t)
      ∨ t.port = some i ∨ ∃ rest, s.schedule = .reset :: rest

/-- R93: once `FAULT` is not `NONE`, no step but a reset changes it or any other element of the block but `INFLIGHT`, which a
completion may clear; nothing leaves the block but the report of a failed `Tx`. -/
def Obligations.FaultIsStickyAndStopsTheBlock : Prop :=
  ∀ s t : State, s.fault ≠ .none → step s = .next t → (∀ rest, s.schedule ≠ .reset :: rest) →
    t.fault = s.fault ∧ t.life = s.life ∧ t.mode = s.mode ∧ t.shadow = s.shadow ∧ t.blink = s.blink ∧ t.pwm = s.pwm
      ∧ t.handle = s.handle ∧ t.queue = s.queue ∧ t.resp = s.resp
      ∧ (∀ i, s.port = some i → i.isEncoderCall = false → t.port = some i)
      ∧ (t.inflight = s.inflight ∧ t.log = s.log
        ∨ t.inflight = none ∧ (t.log = s.log ∨ ∃ w, s.inflight = some (.tx w) ∧ t.log = s.log ++ [.report w]))

/-- R93: the run of a faulted block, once no agent can move, is a failed run: the step stops with the fault that `FAULT`
names. The stop is the model's reading of "a model counts a run that faults as failed" (log 11). -/
def Obligations.FaultedRunsFail : Prop :=
  ∀ s : State, s.schedule = [] → s.noCall → (s.inflight = none ∨ s.transport = []) →
    (s.port ≠ none ∨ s.requester = []) →
    (s.fault = .notReady → step s = .fault .notReady) ∧ (s.fault = .reinit → step s = .fault .reinit)
      ∧ (s.fault = .openFailed → step s = .fault .openFailed)

/-- R100: if the transport completes nothing, the block stays busy: `INFLIGHT` stays set, nothing is issued or delivered, and a
held request stays held; no fault comes of it. -/
def Obligations.StuckTransportBlocksTheBlock : Prop :=
  ∀ (s : State) (a : Action), s.inflight = some a → s.transport = [] → s.noCall → s.fault = .none →
    (∀ rest, s.schedule ≠ .reset :: rest) → ∃ t : State, step s = .next t
      ∧ t = { s with schedule := t.schedule, port := t.port, requester := t.requester }
      ∧ ∀ i, s.port = some i → t.port = some i

/-- R24 and R73: if the transport completes every action, and the `Open` and `SetClock` among them `ok`, then a request in hand
completes: after one step per issue, per completion and for the delivery the block is idle, every action has been
issued once and in order (R40), and exactly one response has been delivered, at the end. -/
def Obligations.RequestsCompleteWithOneResponse : Prop :=
  ∀ (s : State) (r : Response), s.schedule = [] → s.noCall → s.fault = .none → s.inflight = none → s.resp = some r →
    s.queue.length ≤ s.transport.length →
    (∀ (k : Nat) (a : Action), s.queue[k]? = some a → s.transport[k]? = some .error → ∃ w, a = .tx w) →
    ∃ t es, core.run (2 * s.queue.length + 1) s = .next t ∧ t.idle ∧ t.fault = .none
      ∧ t.log = s.log ++ es ++ [.response r] ∧ es.filterMap Event.action = s.queue ∧ ∀ q, .response q ∉ es

/-- R102: the reset input leaves the block as after power-on, whatever it was doing: a held request is dropped, an action in
flight is abandoned, nothing goes out, chip RAM is not touched; and the completion of an abandoned action changes
nothing of the block. That the registers without a value read zero is the model's choice (log 1) and not claimed. -/
def Obligations.ResetInputEntersTheResetState : Prop :=
  (∀ (s : State) (rest : List Move), s.schedule = .reset :: rest → ∃ t : State, step s = .next t
      ∧ t.life = .uninit ∧ t.fault = .none ∧ t.queue = [] ∧ t.inflight = none ∧ t.resp = none ∧ t.port = none
      ∧ t.abandoned = s.abandoned ++ s.inflight.toList.map (fun a => ⟨a, s.rowCount⟩) ∧ t.log = s.log ∧ t.chip = s.chip)
    ∧ ∀ (s : State) (n : Nat) (rest : List Move), s.schedule = .stale n :: rest → ∃ t : State, step s = .next t
      ∧ t = { s with
          schedule := rest
          abandoned := t.abandoned
          transport := t.transport
          chip := t.chip }

/-- R102 and R45: the completion of an abandoned action, whichever of them comes, is ignored by the block and not reported; the
chip takes the word of a `Tx` that completes `ok` as R45 says, a failed one makes chip RAM unconstrained, and an `Open` or a
`SetClock` leaves it as it is. That the word's row count is the one it was built for is deduced (log 9), and that the
abandoned actions may complete in any order is the model's choice, the spec being silent (log 22). -/
def Obligations.AbandonedCompletionsReachOnlyTheChip : Prop :=
  ∀ (s : State) (k : Nat) (a : Action) (n : Nat) (c : Completion) (turns : List Move) (more : List Completion),
    s.schedule = .stale k :: turns → s.abandoned[k]? = some ⟨a, n⟩ → s.transport = c :: more →
    step s = .next { s with
      schedule := turns
      abandoned := s.abandoned.take k ++ s.abandoned.drop (k + 1)
      transport := more
      chip := match a, c with
        | .tx w, .ok _ => chipApply s.params.lastRowTarget n s.chip w
        | .tx _, .error => s.chip.unconstrain
        | .openDev _, _ => s.chip
        | .setClock _, _ => s.chip }

/-- R102 and R103: the values the spec gives the state after reset, under any parameters. That `State.reset` takes the
reference configuration is the model's choice (log 3). -/
def Obligations.ResetValuesOfTheSpec : Prop :=
  ∀ p : Params, (State.resetWith p).life = .uninit ∧ (State.resetWith p).fault = .none ∧ (State.resetWith p).queue = []
    ∧ (State.resetWith p).inflight = none ∧ (State.resetWith p).resp = none ∧ (State.resetWith p).port = none
    ∧ State.reset = State.resetWith .reference

/-! ### Invariants and whole-machine rules -/

/-- The invariant holds right after reset. -/
def Obligations.ResetMeetsTheInvariant : Prop := ∀ p : Params, (State.resetWith p).Inv

/-- Every step keeps the invariant, whoever moves. -/
def Obligations.EveryStepKeepsTheInvariant : Prop := ∀ s t : State, s.Inv → step s = .next t → t.Inv

/-- R27: every step keeps shadow consistency: after `INIT`, each row holds the columns of the last write word built for it, or
is all-false. The word sets of R56 are apart, or a command word would read as a write word. -/
def Obligations.EveryStepKeepsShadowConsistency : Prop :=
  ∀ s t : State, s.Inv → s.params.Separated → s.ShadowConsistent → step s = .next t → t.ShadowConsistent

/-- R55 and R57: every step keeps it so that every word in hand is one the block may emit; `CMD_LED_OFF`, rows past the last
and a lookahead at the last row are not among them. -/
def Obligations.EveryStepKeepsOnlyEmittedWords : Prop :=
  ∀ s t : State, s.OnlyEmitted → step s = .next t → t.OnlyEmitted

/-- R29: once `LIFE = READY`, no step but a reset changes `MODE`. -/
def Obligations.ModeIsImmutableOnceReady : Prop :=
  ∀ s t : State, s.life = .ready → step s = .next t → (∀ rest, s.schedule ≠ .reset :: rest) →
    t.mode = s.mode ∧ t.rowCount = s.rowCount

/-- R12 and R80: `LIFE` goes from `UNINIT` to `READY` only by an `INIT` the block accepts, and back only by a reset. -/
def Obligations.LifecycleTransitions : Prop :=
  ∀ s t : State, step s = .next t →
    (s.life = .uninit → t.life = .ready →
      s.idle ∧ s.fault = .none ∧ ∃ m k, s.port = some (.init m) ∧ modeOperand m = some k ∧ t.mode = k)
      ∧ (s.life = .ready → t.life = .uninit → ∃ rest, s.schedule = .reset :: rest)

/-- R28: after `INIT` a shadow row changes only by an accepted `WRITE_ADDR`, `WRITE_LED` or `CLEAR`, or by a reset. -/
def Obligations.RowsChangeOnlyByTheWriteChannel : Prop :=
  ∀ s t : State, s.life = .ready → step s = .next t → t.shadow ≠ s.shadow →
    (∃ rest, s.schedule = .reset :: rest)
      ∨ s.idle ∧ s.fault = .none ∧ ((∃ o d0 d1 d2 d3, s.port = some (.writeAddr o d0 d1 d2 d3))
        ∨ (∃ o k v, s.port = some (.writeLed o k v)) ∨ s.port = some .clear)

/-- R42: `LIFE`, `MODE`, `SHADOW`, `BLINK` and `PWM` change in the ACCEPT step of a request, or by a reset, and in no other
step. -/
def Obligations.RegistersChangeOnlyAtAcceptance : Prop :=
  ∀ s t : State, step s = .next t →
    t.life ≠ s.life ∨ t.mode ≠ s.mode ∨ t.shadow ≠ s.shadow ∨ t.blink ≠ s.blink ∨ t.pwm ≠ s.pwm →
    (∃ rest, s.schedule = .reset :: rest)
      ∨ ∃ i, s.port = some i ∧ i.isEncoderCall = false ∧ s.idle ∧ s.fault = .none
          ∧ exec i { s with port := none, schedule := s.schedule.tail } = .next t

/-- R18: `HANDLE` changes only when an `Open` in flight completes `ok`, and then holds the handle returned, or by a reset. -/
def Obligations.HandleChangesOnlyWhenOpenCompletes : Prop :=
  ∀ s t : State, step s = .next t → t.handle ≠ s.handle →
    (∃ rest, s.schedule = .reset :: rest)
      ∨ ∃ dev rest, s.inflight = some (.openDev dev) ∧ s.transport = .ok t.handle :: rest ∧ s.fault = .none
          ∧ t.inflight = none

/-- No step changes the OPEN parameters: they are fixed for the machine (R6). That a state carries them is the model's
choice (log 4). -/
def Obligations.ParametersNeverChange : Prop := ∀ s t : State, step s = .next t → t.params = s.params

/-- R103: before `INIT` nothing reads `MODE`, `SHADOW`, `BLINK`, `PWM` or `HANDLE`: of two states alike but for them, one step
makes two states alike but for them, and alike in all but `HANDLE` once `INIT` is accepted. A bench's `ENC_WRITE` call,
which takes its `rowCount` from `MODE` (R72), is no request and stands apart. -/
def Obligations.UnsetRegistersAreUnobservable : Prop :=
  ∀ s t s' : State, s.Inv → t.Inv → s.life = .uninit → s.SameButUnset t →
    (∀ o d0 d1 d2 d3 la0 la1, s.port ≠ some (.write o d0 d1 d2 d3 la0 la1)) → step s = .next s' →
    ∃ t', step t = .next t' ∧ s'.SameButUnset t' ∧ (s'.life = .ready → s' = { t' with handle := s'.handle })

/-! ### The reference chip model -/

/-- R45: what a word does to chip RAM. A command word changes nothing. A write word sets the addressed row; it sets columns 0
and 1 of the next row if there is one, and of row 0 after the last row under the target `row0`; every other cell keeps its
value, but for row 0's columns 0 and 1 after the last row under `unknown`, of which nothing is said. -/
def Obligations.ChipTakesAWordAsTheReferenceModelSays : Prop :=
  ∀ (target : LastRowTarget) (n a : Nat) (c : Chip) (w : Word) (row : Row), a = (w.extractLsb 12 6).toNat →
    row = ⟨w.getLsbD 5, w.getLsbD 4, w.getLsbD 3, w.getLsbD 2⟩ →
    (w.extractLsb 15 13 ≠ (0b101 : BitVec 3) → chipApply target n c w = c)
      ∧ (w.extractLsb 15 13 = (0b101 : BitVec 3) → a + 1 < n → ∀ r, (chipApply target n c w).read r =
          if r = a then row
          else if r = a + 1 then ⟨w.getLsbD 1, w.getLsbD 0, (c.read r).c2, (c.read r).c3⟩
          else c.read r)
      ∧ (w.extractLsb 15 13 = (0b101 : BitVec 3) → n ≤ a + 1 → a ≠ 0 →
          (∀ r, r ≠ 0 → (chipApply target n c w).read r = if r = a then row else c.read r)
            ∧ ((chipApply target n c w).read 0).c2 = (c.read 0).c2 ∧ ((chipApply target n c w).read 0).c3 = (c.read 0).c3
            ∧ (target = .none → (chipApply target n c w).read 0 = c.read 0)
            ∧ (target = .row0 → ((chipApply target n c w).read 0).c0 = w.getLsbD 1
                ∧ ((chipApply target n c w).read 0).c1 = w.getLsbD 0))

/-- R85: under `LAST_ROW_LOOKAHEAD_TARGET = none`, if the chip agrees with the shadow map when a `WRITE_ADDR` or a `WRITE_LED` is
accepted, and its `Tx` completes `ok`, the chip agrees when it completes. -/
def Obligations.OverlappingWritesKeepTheChipInAgreement : Prop :=
  ∀ (s t : State) (i : Instr), s.life = .ready → s.shadow.wf → s.params.lastRowTarget = .none → s.resp = none → s.Agrees →
    ((∃ o d0 d1 d2 d3, i = .writeAddr o d0 d1 d2 d3) ∨ ∃ o k v, i = .writeLed o k v) →
    exec i s = .next t → t.resp = some .ok →
    ∃ w, t.queue = [.tx w] ∧ ∀ h, ((t.issue (.tx w) []).complete (.tx w) (.ok h)).Agrees

/-- R85: with every `Tx` of a `CLEAR` completing `ok`, chip RAM becomes all-false on every row that exists, from any chip state,
when the target is `none` or `row0`, and then agrees with the shadow map; under `unknown` so do all rows but row 0, of which
columns 2 and 3 become false. -/
def Obligations.ClearEstablishesAgreement : Prop :=
  ∀ (s t : State) (c d : Chip), s.life = .ready → exec .clear s = .next t →
    d = (txWords t.queue).foldl (chipApply s.params.lastRowTarget s.rowCount) c →
    (∀ r < s.rowCount, r ≠ 0 ∨ s.params.lastRowTarget ≠ .unknown → d.read r = ⟨false, false, false, false⟩)
      ∧ (d.read 0).c2 = false ∧ (d.read 0).c3 = false
      ∧ (s.shadow.wf → s.params.lastRowTarget ≠ .unknown → { t with chip := d }.Agrees)

/-- R85 and R111: with the target `row0`, a write of the last row whose `Tx` completes `ok` makes chip row 0's columns 0 and 1
false while the shadow keeps them. -/
def Obligations.LastRowWriteClearsChipRow0UnderRow0 : Prop :=
  ∀ (s t : State) (d0 d1 d2 d3 : Bool) (w : Word) (h : Handle), s.life = .ready → s.params.lastRowTarget = .row0 →
    exec (.writeAddr (.vInt (s.rowCount - 1 : Nat)) (.vBool d0) (.vBool d1) (.vBool d2) (.vBool d3)) s = .next t →
    t.queue = [.tx w] →
    let u := (t.issue (.tx w) []).complete (.tx w) (.ok h)
    u.memRead 0 = s.memRead 0 ∧ (u.chip.read 0).c0 = false ∧ (u.chip.read 0).c1 = false
end

