-- ==== Sys2Proof/Laws/Encoder.lean ====
section
/-! SUPPORT. What the encoder answers to the controller: the operands the controller passes are always in range, so every
call gives one word (R89). -/

namespace Sys2Proof.Machine

theorem Mode.rowCount_cases (m : Mode) : m.rowCount = 64 ∨ m.rowCount = 96 := by
  cases h : m.com16 <;> simp [Mode.rowCount, h]

theorem Mode.rowCount_le (m : Mode) : m.rowCount ≤ 96 := by
  rcases m.rowCount_cases with h | h <;> omega

theorem Mode.rowCount_pos (m : Mode) : 0 < m.rowCount := by
  rcases m.rowCount_cases with h | h <;> omega

/-- `ENC_WRITE` of a row that exists gives a word (R89). -/
theorem encWrite_ok {n o : Nat} (h : o < n) (d0 d1 d2 d3 la0 la1 : Bool) :
    ∃ w, encWrite n o d0 d1 d2 d3 la0 la1 = .ok w := by
  simp [encWrite, h]

/-- The write word's fields as weights (R49 to R52). -/
theorem writeLayout_toNat (a : BitVec 7) (d0 d1 d2 d3 l0 l1 : Bool) :
    (writeLayout a d0 d1 d2 d3 l0 l1).toNat = 0xA000 + a.toNat * 64 + 32 * d0.toNat + 16 * d1.toNat + 8 * d2.toNat
      + 4 * d3.toNat + 2 * l0.toNat + l1.toNat := by
  have bit (n : Nat) (x : BitVec n) (b : Bool) : (x ++ BitVec.ofBool b).toNat = 2 * x.toNat + b.toNat := by
    rw [BitVec.toNat_append, ← Nat.shiftLeft_add_eq_or_of_lt (BitVec.ofBool b).isLt, Nat.shiftLeft_eq]
    cases b <;> simp <;> omega
  have id : ((0b101 : BitVec 3) ++ a).toNat = 640 + a.toNat := by
    rw [BitVec.toNat_append, ← Nat.shiftLeft_add_eq_or_of_lt a.isLt, Nat.shiftLeft_eq]
    rfl
  unfold writeLayout
  simp only [bit, id]
  omega

/-- What each field of a write word holds (R49). -/
theorem writeLayout_fields (a : BitVec 7) (d0 d1 d2 d3 l0 l1 : Bool) :
    let w := writeLayout a d0 d1 d2 d3 l0 l1
    isWriteWord w ∧ w.extractLsb 12 6 = a ∧ w.getLsbD 5 = d0 ∧ w.getLsbD 4 = d1 ∧ w.getLsbD 3 = d2 ∧ w.getLsbD 2 = d3
      ∧ w.getLsbD 1 = l0 ∧ w.getLsbD 0 = l1 := by
  intro w
  have hw : w.toNat = _ := writeLayout_toNat a d0 d1 d2 d3 l0 l1
  have ha := a.isLt
  have := d0.toNat_le
  have := d1.toNat_le
  have := d2.toNat_le
  have := d3.toNat_le
  have := l0.toNat_le
  have := l1.toNat_le
  have bit (i : Nat) (b : Bool) (h : w.toNat / 2 ^ i % 2 = b.toNat) : w.getLsbD i = b := by
    rw [BitVec.getLsbD, Nat.testBit_eq_decide_div_mod_eq, h]
    cases b <;> rfl
  refine ⟨BitVec.eq_of_toNat_eq ?_, BitVec.eq_of_toNat_eq ?_, bit 5 _ ?_, bit 4 _ ?_, bit 3 _ ?_, bit 2 _ ?_, bit 1 _ ?_,
    bit 0 _ ?_⟩
  · rw [show (0b101 : BitVec 3).toNat = 5 from rfl, BitVec.extractLsb_toNat, Nat.shiftRight_eq_div_pow]
    omega
  · rw [BitVec.extractLsb_toNat, Nat.shiftRight_eq_div_pow]
    omega
  all_goals omega

/-- A write word is its fields put side by side (R49). -/
theorem writeLayout_of_word (w : Word) (h : isWriteWord w) :
    writeLayout (w.extractLsb 12 6) (w.getLsbD 5) (w.getLsbD 4) (w.getLsbD 3) (w.getLsbD 2) (w.getLsbD 1)
      (w.getLsbD 0) = w := by
  apply BitVec.eq_of_toNat_eq
  rw [writeLayout_toNat]
  have h' := congrArg BitVec.toNat h
  have hw := w.isLt
  have bit : ∀ i, (w.getLsbD i).toNat = w.toNat / 2 ^ i % 2 := by
    intro i
    rw [BitVec.getLsbD, Nat.testBit_eq_decide_div_mod_eq]
    by_cases hh : w.toNat / 2 ^ i % 2 = 1
    · simp [hh]
    · simp [hh]; omega
  simp only [BitVec.extractLsb_toNat, Nat.shiftRight_eq_div_pow, bit] at h' ⊢
  simp at h' ⊢
  omega

/-- `ENC_WRITE` of a row that exists, field by field (R72). -/
theorem encWrite_layout {n : Nat} (hn : n ≤ 96) {o : Int} (h0 : 0 ≤ o) (h1 : o < n) (d0 d1 d2 d3 l0 l1 : Bool) :
    encWrite n o d0 d1 d2 d3 l0 l1 = .ok (writeLayout (BitVec.ofNat 7 o.toNat) d0 d1 d2 d3
      (l0 && decide (o ≠ n - 1)) (l1 && decide (o ≠ n - 1))) := by
  unfold encWrite
  rw [if_pos ⟨h0, h1⟩]
  refine congrArg EncResult.ok (BitVec.eq_of_toNat_eq ?_)
  rw [writeLayout_toNat, mask16, BitVec.toNat_ofNat, BitVec.toNat_ofNat]
  have := d0.toNat_le
  have := d1.toNat_le
  have := d2.toNat_le
  have := d3.toNat_le
  have := (l0 && decide (o ≠ n - 1)).toNat_le
  have := (l1 && decide (o ≠ n - 1)).toNat_le
  simp only [writeBase, addrInc]
  omega

/-- `ENC_PWM` of a level register's value gives a word (R89). -/
theorem encPwm_level (p : Params) (n : BitVec 4) :
    encPwm p n.toNat = .ok (BitVec.ofNat 16 (p.pwmBase + n.toNat * p.pwmStep)) := by
  have := n.isLt
  simp [encPwm, mask16, show n.toNat ≤ 15 by omega]

/-- `ENC_MODE` of a mode's word gives the word (R70, R89). -/
theorem encMode_word (m : Mode) : encMode m.word.toNat = .ok m.word := by
  obtain ⟨c, p⟩ := m
  cases c <;> cases p <;> rfl

/-- `modeOf` inverts `modeWord` (R13). -/
@[simp] theorem modeOf_word (m : Mode) : modeOf m.word.toNat = some m := by
  obtain ⟨c, p⟩ := m
  cases c <;> cases p <;> rfl

end Sys2Proof.Machine
end

