-- ==== Sys2Proof/Laws/Chip.lean ====
section
/-! SUPPORT. The laws of the reference chip's RAM: read after write, and what the pre-stage leaves. -/

namespace Sys2Proof.Machine

@[simp] theorem Chip.read_write_same (c : Chip) (r : Nat) (v : Row) : (c.write r v).read r = v := by
  simp [Chip.read, Chip.write]

/-- A write changes no other row. -/
theorem Chip.read_write_other (c : Chip) {r r' : Nat} (v : Row) (h : r' ≠ r) : (c.write r v).read r' = c.read r' := by
  have hf : (c.rows.filter (fun e => e.1 != r)).find? (fun e => e.1 == r') = c.rows.find? (fun e => e.1 == r') := by
    rw [List.find?_filter]
    congr 1
    funext e
    by_cases he : e.1 = r' <;> simp [he, h]
  simp [Chip.read, Chip.write, h.symm, hf]

/-- A read of the row just pre-staged: columns 0 and 1 are new, columns 2 and 3 as they were (R45). -/
@[simp] theorem Chip.read_prestage_same (c : Chip) (r : Nat) (l0 l1 : Bool) :
    (c.prestage r l0 l1).read r = ⟨l0, l1, (c.read r).c2, (c.read r).c3⟩ := by
  simp [Chip.prestage]

/-- The pre-stage changes no other row. -/
theorem Chip.read_prestage_other (c : Chip) {r r' : Nat} (l0 l1 : Bool) (h : r' ≠ r) :
    (c.prestage r l0 l1).read r' = c.read r' :=
  c.read_write_other _ h

/-- Losing row 0's first two columns changes no other row. -/
theorem Chip.read_loseRow0_other (c : Chip) {r : Nat} (h : r ≠ 0) : c.loseRow0.read r = c.read r :=
  c.read_write_other _ h

/-- Losing row 0's first two columns keeps its last two. -/
theorem Chip.read_loseRow0_same (c : Chip) :
    (c.loseRow0.read 0).c2 = (c.read 0).c2 ∧ (c.loseRow0.read 0).c3 = (c.read 0).c3 := by
  have h : c.loseRow0.read 0
      = (c.prestage 0 (Config.freeChipCell c.draws 0 0) (Config.freeChipCell c.draws 0 1)).read 0 := rfl
  rw [h, Chip.read_prestage_same]
  exact ⟨rfl, rfl⟩

/-- The row a write word addresses (R49). -/
theorem addrOf_writeLayout {o : Nat} (h : o < 128) (d0 d1 d2 d3 l0 l1 : Bool) :
    addrOf (writeLayout (BitVec.ofNat 7 o) d0 d1 d2 d3 l0 l1) = o := by
  rw [addrOf, (writeLayout_fields _ _ _ _ _ _ _).2.1, BitVec.toNat_ofNat]
  omega

/-- The columns a write word carries (R49). -/
theorem rowOf_writeLayout (a : BitVec 7) (d0 d1 d2 d3 l0 l1 : Bool) :
    rowOf (writeLayout a d0 d1 d2 d3 l0 l1) = ⟨d0, d1, d2, d3⟩ := by
  obtain ⟨-, -, h5, h4, h3, h2, -, -⟩ := writeLayout_fields a d0 d1 d2 d3 l0 l1
  unfold rowOf
  rw [h5, h4, h3, h2]

/-- A word that is no write word leaves chip RAM unchanged (R45). -/
theorem chipApply_command (target : LastRowTarget) (n : Nat) (c : Chip) (w : Word) (h : ¬ isWriteWord w) :
    chipApply target n c w = c := if_neg h

/-- A write word of a row other than the last one writes it and pre-stages the next (R45). -/
theorem chipApply_write (target : LastRowTarget) (n : Nat) (c : Chip) (w : Word) (h : isWriteWord w)
    (ha : addrOf w + 1 < n) :
    chipApply target n c w = (c.write (addrOf w) (rowOf w)).prestage (addrOf w + 1) (w.getLsbD 1) (w.getLsbD 0) := by
  simp [chipApply, h, ha]

@[simp] theorem Chip.completed_tx_ok (target : LastRowTarget) (n : Nat) (c : Chip) (w : Word) (h : Handle) :
    c.completed target n (.tx w) (.ok h) = chipApply target n c w := rfl

@[simp] theorem Chip.completed_tx_error (target : LastRowTarget) (n : Nat) (c : Chip) (w : Word) :
    c.completed target n (.tx w) .error = c.unconstrain := rfl

@[simp] theorem Chip.completed_openDev (target : LastRowTarget) (n : Nat) (c : Chip) (dev : DeviceId) (k : Completion) :
    c.completed target n (.openDev dev) k = c := by cases k <;> rfl

@[simp] theorem Chip.completed_setClock (target : LastRowTarget) (n : Nat) (c : Chip) (hz : Nat) (k : Completion) :
    c.completed target n (.setClock hz) k = c := by cases k <;> rfl

end Sys2Proof.Machine
end

