-- ==== Sys2Proof/Laws/Memory.lean ====
section
/-! SUPPORT. The laws of the shadow map: read after write, and the canonical form that every write keeps. -/

namespace Sys2Proof.Machine

@[simp] theorem Memory.read_nil (r : Nat) : Memory.read [] r = Row.clear := rfl

/-- A row below every listed one, or listed nowhere, is all-false. -/
theorem Memory.read_unlisted (m : Memory) (r : Nat) (h : ∀ e ∈ m, e.1 ≠ r) : m.read r = Row.clear := by
  induction m with
  | nil => rfl
  | cons e m ih =>
    obtain ⟨a, x⟩ := e
    have ha : a ≠ r := h (a, x) (by simp)
    simp only [Memory.read, if_neg ha]
    exact ih fun e he => h e (by simp [he])

/-- A read of the row just written gives the value written (R32). -/
theorem Memory.read_write_same (m : Memory) (h : m.wf) (r : Nat) (v : Row) : (m.write r v).read r = v := by
  induction m with
  | nil => by_cases hv : v = Row.clear <;> simp [Memory.write, Memory.read, hv]
  | cons e m ih =>
    obtain ⟨a, x⟩ := e
    obtain ⟨hs, hn⟩ := h
    rw [List.pairwise_cons] at hs
    have above : ∀ b ≤ a, Memory.read m b = Row.clear := fun b hb =>
      Memory.read_unlisted m b fun e he => by have := hs.1 e he; simp only at this; omega
    have tail : Memory.wf m := ⟨hs.2, fun e he => hn e (by simp [he])⟩
    unfold Memory.write
    rcases lt_trichotomy r a with hr | hr | hr
    · by_cases hv : v = Row.clear
      · rw [if_pos hr, if_pos hv]
        simp [Memory.read, hv, above r hr.le, hr.ne']
      · rw [if_pos hr, if_neg hv]
        simp [Memory.read]
    · subst hr
      by_cases hv : v = Row.clear <;> simp [Memory.read, hv, above]
    · simp [hr.not_gt, hr.ne', hr.ne, Memory.read, ih tail]

/-- A read of any other row is what it was (R32). -/
theorem Memory.read_write_other (m : Memory) (r r' : Nat) (v : Row) (h : r' ≠ r) : (m.write r v).read r' = m.read r' := by
  induction m with
  | nil => by_cases hv : v = Row.clear <;> simp [Memory.write, Memory.read, hv, h.symm]
  | cons e m ih =>
    obtain ⟨a, x⟩ := e
    unfold Memory.write
    split
    · split <;> simp [Memory.read, h.symm]
    · split
      · rename_i hr
        subst hr
        split <;> simp [Memory.read, h.symm]
      · simp [Memory.read, ih]

/-- A write lists only the row written and rows that were listed. -/
theorem Memory.mem_write {m : Memory} {r : Nat} {v : Row} {e : Nat × Row} (h : e ∈ m.write r v) :
    (e = (r, v) ∧ v ≠ Row.clear) ∨ e ∈ m := by
  induction m with
  | nil =>
    by_cases hv : v = Row.clear <;> simp [Memory.write, hv] at h
    exact .inl ⟨h, hv⟩
  | cons d m ih =>
    obtain ⟨a, x⟩ := d
    unfold Memory.write at h
    split at h
    · split at h
      · exact .inr h
      · rcases List.mem_cons.1 h with h | h
        · exact .inl ⟨h, ‹_›⟩
        · exact .inr h
    · split at h
      · split at h
        · exact .inr (List.mem_cons_of_mem _ h)
        · rcases List.mem_cons.1 h with h | h
          · exact .inl ⟨h, ‹_›⟩
          · exact .inr (List.mem_cons_of_mem _ h)
      · rcases List.mem_cons.1 h with h | h
        · exact .inr (h ▸ List.mem_cons_self)
        · exact (ih h).imp id (List.mem_cons_of_mem _)

/-- A write keeps the canonical form. -/
theorem Memory.write_wf {m : Memory} (h : m.wf) (r : Nat) (v : Row) : (m.write r v).wf := by
  induction m with
  | nil => by_cases hv : v = Row.clear <;> simp [Memory.write, Memory.wf, hv]
  | cons d m ih =>
    obtain ⟨a, x⟩ := d
    obtain ⟨hs, hn⟩ := h
    rw [List.pairwise_cons] at hs
    have tail : Memory.wf m := ⟨hs.2, fun e he => hn e (by simp [he])⟩
    unfold Memory.write
    split
    · rename_i hlt
      split
      · exact ⟨List.pairwise_cons.2 hs, hn⟩
      · rename_i hv
        refine ⟨List.pairwise_cons.2 ⟨?_, List.pairwise_cons.2 hs⟩, ?_⟩
        · intro e he
          rcases List.mem_cons.1 he with rfl | he
          · exact hlt
          · exact hlt.trans (hs.1 e he)
        · intro e he
          rcases List.mem_cons.1 he with rfl | he
          · exact hv
          · exact hn e he
    · split
      · rename_i heq
        subst heq
        split
        · exact tail
        · rename_i hv
          refine ⟨List.pairwise_cons.2 hs, fun e he => ?_⟩
          rcases List.mem_cons.1 he with rfl | he
          · exact hv
          · exact tail.2 e he
      · rename_i hge hne
        obtain ⟨hs', hn'⟩ := ih tail
        refine ⟨List.pairwise_cons.2 ⟨fun e he => ?_, hs'⟩, fun e he => ?_⟩
        · rcases Memory.mem_write he with ⟨rfl, -⟩ | he
          · simp only; omega
          · exact hs.1 e he
        · rcases List.mem_cons.1 he with rfl | he
          · exact hn _ (by simp)
          · exact hn' e he

/-- A write keeps the rows listed below a bound, when the row written is below it. -/
theorem Memory.write_below {m : Memory} {n : Nat} (h : ∀ e ∈ m, e.1 < n) {r : Nat} (hr : r < n) (v : Row) :
    ∀ e ∈ m.write r v, e.1 < n := by
  intro e he
  rcases Memory.mem_write he with ⟨rfl, -⟩ | he
  · exact hr
  · exact h e he

end Sys2Proof.Machine
end

