-- ==== Sys2Proof/Laws/Operands.lean ====
section
/-! SUPPORT. Which operand values pass a request's validation (R87). -/

namespace Sys2Proof.Machine

@[simp] theorem boolOperand_vBool (b : Bool) : boolOperand (.vBool b) = some b := rfl

theorem boolOperand_eq_some {v : Val} {b : Bool} : boolOperand v = some b ↔ v = .vBool b := by
  cases v <;> simp [boolOperand]

theorem boolOperand_eq_none {v : Val} : boolOperand v = none ↔ ∀ b, v ≠ .vBool b := by
  cases v <;> simp [boolOperand]

theorem indexOperand_eq_some {bound o : Nat} {v : Val} : indexOperand bound v = some o ↔ v = .vInt o ∧ o < bound := by
  cases v with
  | vInt n =>
    simp only [indexOperand, Val.vInt.injEq]
    split
    · simp only [Option.some.injEq]; omega
    · simp only [reduceCtorEq, false_iff]; omega
  | vBool b => simp [indexOperand]
  | vOther => simp [indexOperand]

theorem indexOperand_eq_none {bound : Nat} {v : Val} :
    indexOperand bound v = none ↔ ∀ n : Int, 0 ≤ n → n < bound → v ≠ .vInt n := by
  cases v with
  | vInt n =>
    simp only [indexOperand, ne_eq, Val.vInt.injEq]
    split
    · rename_i h
      simp only [reduceCtorEq, false_iff, not_forall, not_not]
      exact ⟨n, h.1, h.2, rfl⟩
    · rename_i h
      simp only [true_iff]
      rintro m h0 h1 rfl
      exact h ⟨h0, h1⟩
  | vBool b => simp [indexOperand]
  | vOther => simp [indexOperand]

theorem levelOperand_vInt (n : BitVec 4) : levelOperand (.vInt n.toNat) = some n := by
  have := n.isLt
  simp [levelOperand, indexOperand, show n.toNat < 16 from n.isLt]

theorem rowOperand_eq_some {d0 d1 d2 d3 : Val} {row : Row} :
    rowOperand d0 d1 d2 d3 = some row
      ↔ d0 = .vBool row.c0 ∧ d1 = .vBool row.c1 ∧ d2 = .vBool row.c2 ∧ d3 = .vBool row.c3 := by
  obtain ⟨c0, c1, c2, c3⟩ := row
  cases d0 <;> cases d1 <;> cases d2 <;> cases d3 <;> simp [rowOperand, boolOperand]

theorem rowOperand_eq_none {d0 d1 d2 d3 : Val} :
    rowOperand d0 d1 d2 d3 = none ↔ ∃ d ∈ [d0, d1, d2, d3], ∀ b, d ≠ .vBool b := by
  cases d0 <;> cases d1 <;> cases d2 <;> cases d3 <;> simp [rowOperand, boolOperand]

@[simp] theorem modeOperand_none : modeOperand none = some defaultMode := rfl

theorem modeOperand_eq_none {v : Option Val} :
    modeOperand v = none
      ↔ ∃ u, v = some u ∧ u ∉ [.vInt 0x8400, .vInt 0x8480, .vInt 0x8500, .vInt 0x8580] := by
  rcases v with _ | (b | n | _)
  · simp [modeOperand]
  · simp [modeOperand]
  · simp only [modeOperand, modeOf, Option.some.injEq, exists_eq_left', List.mem_cons, Val.vInt.injEq,
      List.not_mem_nil, or_false]
    repeat' split
    all_goals simp_all
  · simp [modeOperand]

end Sys2Proof.Machine
end

