-- ==== Sys2Proof/Laws/PerInstr.lean ====
section
/-! SUPPORT. Laws made per operation: which operations have a word. -/

namespace Sys2Proof.Laws.Encodable

/-- A well-formed encoder call has a word, whatever the parameters; a request has none, for it has no bit encoding (R58). -/
def Statement (i : Instr) : Prop := i.wf = true → ∀ p : Params, (encode p i).isSome = i.isEncoderCall

theorem sysDis : Statement (.sysDis) := fun _ _ => rfl
theorem sysEn : Statement (.sysEn) := fun _ _ => rfl
theorem ledOn : Statement (.ledOn) := fun _ _ => rfl
theorem ledOff : Statement (.ledOff) := fun _ _ => rfl
theorem blinkOn : Statement (.blinkOn) := fun _ _ => rfl
theorem blinkOff : Statement (.blinkOff) := fun _ _ => rfl
theorem master : Statement (.master) := fun _ _ => rfl
theorem mode (m : Int) : Statement (.mode m) := fun _ _ => rfl
theorem pwm (level : Int) : Statement (.pwm level) := fun _ _ => rfl
theorem write (offset : Int) (d0 d1 d2 d3 la0 la1 : Bool) : Statement (.write offset d0 d1 d2 d3 la0 la1) := fun _ _ => rfl
theorem init (mode : Option Val) : Statement (.init mode) := fun _ _ => rfl
theorem getBlink : Statement (.getBlink) := fun _ _ => rfl
theorem setBlink (enabled : Val) : Statement (.setBlink enabled) := fun _ _ => rfl
theorem getPwm : Statement (.getPwm) := fun _ _ => rfl
theorem setPwm (level : Val) : Statement (.setPwm level) := fun _ _ => rfl
theorem writeAddr (offset d0 d1 d2 d3 : Val) : Statement (.writeAddr offset d0 d1 d2 d3) := fun _ _ => rfl
theorem writeLed (offset ledIndex value : Val) : Statement (.writeLed offset ledIndex value) := fun _ _ => rfl
theorem clear : Statement (.clear) := fun _ _ => rfl
theorem readMap : Statement (.readMap) := fun _ _ => rfl

end Sys2Proof.Laws.Encodable
end

