-- ==== Sys2Proof/Laws/State.lean ====
section
/-! SUPPORT. One lemma per field per update of the state, so that no later proof unfolds a record update. -/

namespace Sys2Proof.Machine

@[simp] theorem State.emit_life (s : State) (e : Event) : (s.emit e).life = s.life := rfl
@[simp] theorem State.emit_mode (s : State) (e : Event) : (s.emit e).mode = s.mode := rfl
@[simp] theorem State.emit_shadow (s : State) (e : Event) : (s.emit e).shadow = s.shadow := rfl
@[simp] theorem State.emit_blink (s : State) (e : Event) : (s.emit e).blink = s.blink := rfl
@[simp] theorem State.emit_pwm (s : State) (e : Event) : (s.emit e).pwm = s.pwm := rfl
@[simp] theorem State.emit_handle (s : State) (e : Event) : (s.emit e).handle = s.handle := rfl
@[simp] theorem State.emit_queue (s : State) (e : Event) : (s.emit e).queue = s.queue := rfl
@[simp] theorem State.emit_inflight (s : State) (e : Event) : (s.emit e).inflight = s.inflight := rfl
@[simp] theorem State.emit_resp (s : State) (e : Event) : (s.emit e).resp = s.resp := rfl
@[simp] theorem State.emit_fault (s : State) (e : Event) : (s.emit e).fault = s.fault := rfl
@[simp] theorem State.emit_params (s : State) (e : Event) : (s.emit e).params = s.params := rfl
@[simp] theorem State.emit_port (s : State) (e : Event) : (s.emit e).port = s.port := rfl
@[simp] theorem State.emit_requester (s : State) (e : Event) : (s.emit e).requester = s.requester := rfl
@[simp] theorem State.emit_transport (s : State) (e : Event) : (s.emit e).transport = s.transport := rfl
@[simp] theorem State.emit_schedule (s : State) (e : Event) : (s.emit e).schedule = s.schedule := rfl
@[simp] theorem State.emit_abandoned (s : State) (e : Event) : (s.emit e).abandoned = s.abandoned := rfl
@[simp] theorem State.emit_log (s : State) (e : Event) : (s.emit e).log = s.log ++ [e] := rfl
@[simp] theorem State.emit_encOut (s : State) (e : Event) : (s.emit e).encOut = s.encOut := rfl
@[simp] theorem State.emit_chip (s : State) (e : Event) : (s.emit e).chip = s.chip := rfl

@[simp] theorem State.load_life (s : State) (as : List Action) (r : Response) : (s.load as r).life = s.life := rfl
@[simp] theorem State.load_mode (s : State) (as : List Action) (r : Response) : (s.load as r).mode = s.mode := rfl
@[simp] theorem State.load_shadow (s : State) (as : List Action) (r : Response) : (s.load as r).shadow = s.shadow := rfl
@[simp] theorem State.load_blink (s : State) (as : List Action) (r : Response) : (s.load as r).blink = s.blink := rfl
@[simp] theorem State.load_pwm (s : State) (as : List Action) (r : Response) : (s.load as r).pwm = s.pwm := rfl
@[simp] theorem State.load_handle (s : State) (as : List Action) (r : Response) : (s.load as r).handle = s.handle := rfl
@[simp] theorem State.load_queue (s : State) (as : List Action) (r : Response) : (s.load as r).queue = as := rfl
@[simp] theorem State.load_inflight (s : State) (as : List Action) (r : Response) : (s.load as r).inflight = s.inflight := rfl
@[simp] theorem State.load_resp (s : State) (as : List Action) (r : Response) : (s.load as r).resp = some r := rfl
@[simp] theorem State.load_fault (s : State) (as : List Action) (r : Response) : (s.load as r).fault = s.fault := rfl
@[simp] theorem State.load_params (s : State) (as : List Action) (r : Response) : (s.load as r).params = s.params := rfl
@[simp] theorem State.load_port (s : State) (as : List Action) (r : Response) : (s.load as r).port = s.port := rfl
@[simp] theorem State.load_requester (s : State) (as : List Action) (r : Response) : (s.load as r).requester = s.requester := rfl
@[simp] theorem State.load_transport (s : State) (as : List Action) (r : Response) : (s.load as r).transport = s.transport := rfl
@[simp] theorem State.load_schedule (s : State) (as : List Action) (r : Response) : (s.load as r).schedule = s.schedule := rfl
@[simp] theorem State.load_abandoned (s : State) (as : List Action) (r : Response) : (s.load as r).abandoned = s.abandoned := rfl
@[simp] theorem State.load_log (s : State) (as : List Action) (r : Response) : (s.load as r).log = s.log := rfl
@[simp] theorem State.load_encOut (s : State) (as : List Action) (r : Response) : (s.load as r).encOut = s.encOut := rfl
@[simp] theorem State.load_chip (s : State) (as : List Action) (r : Response) : (s.load as r).chip = s.chip := rfl

@[simp] theorem State.respondInvalid_life (s : State) : s.respondInvalid.life = s.life := rfl
@[simp] theorem State.respondInvalid_mode (s : State) : s.respondInvalid.mode = s.mode := rfl
@[simp] theorem State.respondInvalid_shadow (s : State) : s.respondInvalid.shadow = s.shadow := rfl
@[simp] theorem State.respondInvalid_blink (s : State) : s.respondInvalid.blink = s.blink := rfl
@[simp] theorem State.respondInvalid_pwm (s : State) : s.respondInvalid.pwm = s.pwm := rfl
@[simp] theorem State.respondInvalid_handle (s : State) : s.respondInvalid.handle = s.handle := rfl
@[simp] theorem State.respondInvalid_queue (s : State) : s.respondInvalid.queue = s.queue := rfl
@[simp] theorem State.respondInvalid_inflight (s : State) : s.respondInvalid.inflight = s.inflight := rfl
@[simp] theorem State.respondInvalid_resp (s : State) : s.respondInvalid.resp = s.resp := rfl
@[simp] theorem State.respondInvalid_fault (s : State) : s.respondInvalid.fault = s.fault := rfl
@[simp] theorem State.respondInvalid_params (s : State) : s.respondInvalid.params = s.params := rfl
@[simp] theorem State.respondInvalid_port (s : State) : s.respondInvalid.port = s.port := rfl
@[simp] theorem State.respondInvalid_requester (s : State) : s.respondInvalid.requester = s.requester := rfl
@[simp] theorem State.respondInvalid_transport (s : State) : s.respondInvalid.transport = s.transport := rfl
@[simp] theorem State.respondInvalid_schedule (s : State) : s.respondInvalid.schedule = s.schedule := rfl
@[simp] theorem State.respondInvalid_abandoned (s : State) : s.respondInvalid.abandoned = s.abandoned := rfl
@[simp] theorem State.respondInvalid_log (s : State) : s.respondInvalid.log = s.log ++ [.response .invalidArgument] := rfl
@[simp] theorem State.respondInvalid_encOut (s : State) : s.respondInvalid.encOut = s.encOut := rfl
@[simp] theorem State.respondInvalid_chip (s : State) : s.respondInvalid.chip = s.chip := rfl

@[simp] theorem State.sampled_life (s : State) (r : EncResult) : (s.sampled r).life = s.life := rfl
@[simp] theorem State.sampled_mode (s : State) (r : EncResult) : (s.sampled r).mode = s.mode := rfl
@[simp] theorem State.sampled_shadow (s : State) (r : EncResult) : (s.sampled r).shadow = s.shadow := rfl
@[simp] theorem State.sampled_blink (s : State) (r : EncResult) : (s.sampled r).blink = s.blink := rfl
@[simp] theorem State.sampled_pwm (s : State) (r : EncResult) : (s.sampled r).pwm = s.pwm := rfl
@[simp] theorem State.sampled_handle (s : State) (r : EncResult) : (s.sampled r).handle = s.handle := rfl
@[simp] theorem State.sampled_queue (s : State) (r : EncResult) : (s.sampled r).queue = s.queue := rfl
@[simp] theorem State.sampled_inflight (s : State) (r : EncResult) : (s.sampled r).inflight = s.inflight := rfl
@[simp] theorem State.sampled_resp (s : State) (r : EncResult) : (s.sampled r).resp = s.resp := rfl
@[simp] theorem State.sampled_fault (s : State) (r : EncResult) : (s.sampled r).fault = s.fault := rfl
@[simp] theorem State.sampled_params (s : State) (r : EncResult) : (s.sampled r).params = s.params := rfl
@[simp] theorem State.sampled_port (s : State) (r : EncResult) : (s.sampled r).port = s.port := rfl
@[simp] theorem State.sampled_requester (s : State) (r : EncResult) : (s.sampled r).requester = s.requester := rfl
@[simp] theorem State.sampled_transport (s : State) (r : EncResult) : (s.sampled r).transport = s.transport := rfl
@[simp] theorem State.sampled_schedule (s : State) (r : EncResult) : (s.sampled r).schedule = s.schedule := rfl
@[simp] theorem State.sampled_abandoned (s : State) (r : EncResult) : (s.sampled r).abandoned = s.abandoned := rfl
@[simp] theorem State.sampled_log (s : State) (r : EncResult) : (s.sampled r).log = s.log := rfl
@[simp] theorem State.sampled_encOut (s : State) (r : EncResult) : (s.sampled r).encOut = some r := rfl
@[simp] theorem State.sampled_chip (s : State) (r : EncResult) : (s.sampled r).chip = s.chip := rfl

@[simp] theorem State.memWrite_life (s : State) (r : Nat) (v : Row) : (s.memWrite r v).life = s.life := rfl
@[simp] theorem State.memWrite_mode (s : State) (r : Nat) (v : Row) : (s.memWrite r v).mode = s.mode := rfl
@[simp] theorem State.memWrite_shadow (s : State) (r : Nat) (v : Row) : (s.memWrite r v).shadow = s.shadow.write r v := rfl
@[simp] theorem State.memWrite_blink (s : State) (r : Nat) (v : Row) : (s.memWrite r v).blink = s.blink := rfl
@[simp] theorem State.memWrite_pwm (s : State) (r : Nat) (v : Row) : (s.memWrite r v).pwm = s.pwm := rfl
@[simp] theorem State.memWrite_handle (s : State) (r : Nat) (v : Row) : (s.memWrite r v).handle = s.handle := rfl
@[simp] theorem State.memWrite_queue (s : State) (r : Nat) (v : Row) : (s.memWrite r v).queue = s.queue := rfl
@[simp] theorem State.memWrite_inflight (s : State) (r : Nat) (v : Row) : (s.memWrite r v).inflight = s.inflight := rfl
@[simp] theorem State.memWrite_resp (s : State) (r : Nat) (v : Row) : (s.memWrite r v).resp = s.resp := rfl
@[simp] theorem State.memWrite_fault (s : State) (r : Nat) (v : Row) : (s.memWrite r v).fault = s.fault := rfl
@[simp] theorem State.memWrite_params (s : State) (r : Nat) (v : Row) : (s.memWrite r v).params = s.params := rfl
@[simp] theorem State.memWrite_port (s : State) (r : Nat) (v : Row) : (s.memWrite r v).port = s.port := rfl
@[simp] theorem State.memWrite_requester (s : State) (r : Nat) (v : Row) : (s.memWrite r v).requester = s.requester := rfl
@[simp] theorem State.memWrite_transport (s : State) (r : Nat) (v : Row) : (s.memWrite r v).transport = s.transport := rfl
@[simp] theorem State.memWrite_schedule (s : State) (r : Nat) (v : Row) : (s.memWrite r v).schedule = s.schedule := rfl
@[simp] theorem State.memWrite_abandoned (s : State) (r : Nat) (v : Row) : (s.memWrite r v).abandoned = s.abandoned := rfl
@[simp] theorem State.memWrite_log (s : State) (r : Nat) (v : Row) : (s.memWrite r v).log = s.log := rfl
@[simp] theorem State.memWrite_encOut (s : State) (r : Nat) (v : Row) : (s.memWrite r v).encOut = s.encOut := rfl
@[simp] theorem State.memWrite_chip (s : State) (r : Nat) (v : Row) : (s.memWrite r v).chip = s.chip := rfl

@[simp] theorem State.issue_life (s : State) (a : Action) (rest : List Action) : (s.issue a rest).life = s.life := rfl
@[simp] theorem State.issue_mode (s : State) (a : Action) (rest : List Action) : (s.issue a rest).mode = s.mode := rfl
@[simp] theorem State.issue_shadow (s : State) (a : Action) (rest : List Action) : (s.issue a rest).shadow = s.shadow := rfl
@[simp] theorem State.issue_blink (s : State) (a : Action) (rest : List Action) : (s.issue a rest).blink = s.blink := rfl
@[simp] theorem State.issue_pwm (s : State) (a : Action) (rest : List Action) : (s.issue a rest).pwm = s.pwm := rfl
@[simp] theorem State.issue_handle (s : State) (a : Action) (rest : List Action) : (s.issue a rest).handle = s.handle := rfl
@[simp] theorem State.issue_queue (s : State) (a : Action) (rest : List Action) : (s.issue a rest).queue = rest := rfl
@[simp] theorem State.issue_inflight (s : State) (a : Action) (rest : List Action) : (s.issue a rest).inflight = some a := rfl
@[simp] theorem State.issue_resp (s : State) (a : Action) (rest : List Action) : (s.issue a rest).resp = s.resp := rfl
@[simp] theorem State.issue_fault (s : State) (a : Action) (rest : List Action) : (s.issue a rest).fault = s.fault := rfl
@[simp] theorem State.issue_params (s : State) (a : Action) (rest : List Action) : (s.issue a rest).params = s.params := rfl
@[simp] theorem State.issue_port (s : State) (a : Action) (rest : List Action) : (s.issue a rest).port = s.port := rfl
@[simp] theorem State.issue_requester (s : State) (a : Action) (rest : List Action) : (s.issue a rest).requester = s.requester := rfl
@[simp] theorem State.issue_transport (s : State) (a : Action) (rest : List Action) : (s.issue a rest).transport = s.transport := rfl
@[simp] theorem State.issue_schedule (s : State) (a : Action) (rest : List Action) : (s.issue a rest).schedule = s.schedule := rfl
@[simp] theorem State.issue_abandoned (s : State) (a : Action) (rest : List Action) : (s.issue a rest).abandoned = s.abandoned := rfl
@[simp] theorem State.issue_log (s : State) (a : Action) (rest : List Action) : (s.issue a rest).log = s.log ++ [.call (a.call s.handle)] := rfl
@[simp] theorem State.issue_encOut (s : State) (a : Action) (rest : List Action) : (s.issue a rest).encOut = s.encOut := rfl
@[simp] theorem State.issue_chip (s : State) (a : Action) (rest : List Action) : (s.issue a rest).chip = s.chip := rfl

@[simp] theorem State.deliver_life (s : State) (r : Response) : (s.deliver r).life = s.life := rfl
@[simp] theorem State.deliver_mode (s : State) (r : Response) : (s.deliver r).mode = s.mode := rfl
@[simp] theorem State.deliver_shadow (s : State) (r : Response) : (s.deliver r).shadow = s.shadow := rfl
@[simp] theorem State.deliver_blink (s : State) (r : Response) : (s.deliver r).blink = s.blink := rfl
@[simp] theorem State.deliver_pwm (s : State) (r : Response) : (s.deliver r).pwm = s.pwm := rfl
@[simp] theorem State.deliver_handle (s : State) (r : Response) : (s.deliver r).handle = s.handle := rfl
@[simp] theorem State.deliver_queue (s : State) (r : Response) : (s.deliver r).queue = s.queue := rfl
@[simp] theorem State.deliver_inflight (s : State) (r : Response) : (s.deliver r).inflight = s.inflight := rfl
@[simp] theorem State.deliver_resp (s : State) (r : Response) : (s.deliver r).resp = none := rfl
@[simp] theorem State.deliver_fault (s : State) (r : Response) : (s.deliver r).fault = s.fault := rfl
@[simp] theorem State.deliver_params (s : State) (r : Response) : (s.deliver r).params = s.params := rfl
@[simp] theorem State.deliver_port (s : State) (r : Response) : (s.deliver r).port = s.port := rfl
@[simp] theorem State.deliver_requester (s : State) (r : Response) : (s.deliver r).requester = s.requester := rfl
@[simp] theorem State.deliver_transport (s : State) (r : Response) : (s.deliver r).transport = s.transport := rfl
@[simp] theorem State.deliver_schedule (s : State) (r : Response) : (s.deliver r).schedule = s.schedule := rfl
@[simp] theorem State.deliver_abandoned (s : State) (r : Response) : (s.deliver r).abandoned = s.abandoned := rfl
@[simp] theorem State.deliver_log (s : State) (r : Response) : (s.deliver r).log = s.log ++ [.response r] := rfl
@[simp] theorem State.deliver_encOut (s : State) (r : Response) : (s.deliver r).encOut = s.encOut := rfl
@[simp] theorem State.deliver_chip (s : State) (r : Response) : (s.deliver r).chip = s.chip := rfl

@[simp] theorem State.takeFault_life (s : State) (c : FaultCode) : (s.takeFault c).life = s.life := by
  unfold State.takeFault; split <;> rfl
@[simp] theorem State.takeFault_mode (s : State) (c : FaultCode) : (s.takeFault c).mode = s.mode := by
  unfold State.takeFault; split <;> rfl
@[simp] theorem State.takeFault_shadow (s : State) (c : FaultCode) : (s.takeFault c).shadow = s.shadow := by
  unfold State.takeFault; split <;> rfl
@[simp] theorem State.takeFault_blink (s : State) (c : FaultCode) : (s.takeFault c).blink = s.blink := by
  unfold State.takeFault; split <;> rfl
@[simp] theorem State.takeFault_pwm (s : State) (c : FaultCode) : (s.takeFault c).pwm = s.pwm := by
  unfold State.takeFault; split <;> rfl
@[simp] theorem State.takeFault_handle (s : State) (c : FaultCode) : (s.takeFault c).handle = s.handle := by
  unfold State.takeFault; split <;> rfl
@[simp] theorem State.takeFault_queue (s : State) (c : FaultCode) : (s.takeFault c).queue = s.queue := by
  unfold State.takeFault; split <;> rfl
@[simp] theorem State.takeFault_inflight (s : State) (c : FaultCode) : (s.takeFault c).inflight = s.inflight := by
  unfold State.takeFault; split <;> rfl
@[simp] theorem State.takeFault_resp (s : State) (c : FaultCode) : (s.takeFault c).resp = s.resp := by
  unfold State.takeFault; split <;> rfl
@[simp] theorem State.takeFault_params (s : State) (c : FaultCode) : (s.takeFault c).params = s.params := by
  unfold State.takeFault; split <;> rfl
@[simp] theorem State.takeFault_port (s : State) (c : FaultCode) : (s.takeFault c).port = s.port := by
  unfold State.takeFault; split <;> rfl
@[simp] theorem State.takeFault_requester (s : State) (c : FaultCode) : (s.takeFault c).requester = s.requester := by
  unfold State.takeFault; split <;> rfl
@[simp] theorem State.takeFault_transport (s : State) (c : FaultCode) : (s.takeFault c).transport = s.transport := by
  unfold State.takeFault; split <;> rfl
@[simp] theorem State.takeFault_schedule (s : State) (c : FaultCode) : (s.takeFault c).schedule = s.schedule := by
  unfold State.takeFault; split <;> rfl
@[simp] theorem State.takeFault_abandoned (s : State) (c : FaultCode) : (s.takeFault c).abandoned = s.abandoned := by
  unfold State.takeFault; split <;> rfl
@[simp] theorem State.takeFault_log (s : State) (c : FaultCode) : (s.takeFault c).log = s.log := by
  unfold State.takeFault; split <;> rfl
@[simp] theorem State.takeFault_encOut (s : State) (c : FaultCode) : (s.takeFault c).encOut = s.encOut := by
  unfold State.takeFault; split <;> rfl
@[simp] theorem State.takeFault_chip (s : State) (c : FaultCode) : (s.takeFault c).chip = s.chip := by
  unfold State.takeFault; split <;> rfl

/-- A fault that is the first one is recorded (R93). -/
theorem State.takeFault_of_none (s : State) (c : FaultCode) (h : s.fault = .none) : s.takeFault c = { s with fault := c } := by
  simp [State.takeFault, h]

/-- `FAULT` is sticky (R20). -/
theorem State.takeFault_of_faulted (s : State) (c : FaultCode) (h : s.fault ≠ .none) : s.takeFault c = s := by
  simp [State.takeFault, h]

@[simp] theorem State.applyReset_life (s : State) : s.applyReset.life = .uninit := rfl
@[simp] theorem State.applyReset_mode (s : State) : s.applyReset.mode = ⟨false, false⟩ := rfl
@[simp] theorem State.applyReset_shadow (s : State) : s.applyReset.shadow = [] := rfl
@[simp] theorem State.applyReset_blink (s : State) : s.applyReset.blink = false := rfl
@[simp] theorem State.applyReset_pwm (s : State) : s.applyReset.pwm = 0 := rfl
@[simp] theorem State.applyReset_handle (s : State) : s.applyReset.handle = 0 := rfl
@[simp] theorem State.applyReset_queue (s : State) : s.applyReset.queue = [] := rfl
@[simp] theorem State.applyReset_inflight (s : State) : s.applyReset.inflight = none := rfl
@[simp] theorem State.applyReset_resp (s : State) : s.applyReset.resp = none := rfl
@[simp] theorem State.applyReset_fault (s : State) : s.applyReset.fault = .none := rfl
@[simp] theorem State.applyReset_params (s : State) : s.applyReset.params = s.params := rfl
@[simp] theorem State.applyReset_port (s : State) : s.applyReset.port = none := rfl
@[simp] theorem State.applyReset_requester (s : State) : s.applyReset.requester = s.requester := rfl
@[simp] theorem State.applyReset_transport (s : State) : s.applyReset.transport = s.transport := rfl
@[simp] theorem State.applyReset_schedule (s : State) : s.applyReset.schedule = s.schedule := rfl
@[simp] theorem State.applyReset_abandoned (s : State) : s.applyReset.abandoned = s.abandoned ++ s.inflight.toList.map (fun a => ⟨a, s.rowCount⟩) := rfl
@[simp] theorem State.applyReset_log (s : State) : s.applyReset.log = s.log := rfl
@[simp] theorem State.applyReset_encOut (s : State) : s.applyReset.encOut = s.encOut := rfl
@[simp] theorem State.applyReset_chip (s : State) : s.applyReset.chip = s.chip := rfl

end Sys2Proof.Machine
end

