-- ==== Sys2Proof/Laws/Requests.lean ====
section
/-! SUPPORT. What an accepted operation can do, said once: the row-write path, the clearing of all rows, and the cases of
`exec`. -/

namespace Sys2Proof.Machine

@[simp] theorem whenReady_uninit (s : State) (f : State → State) (h : s.life = .uninit) :
    whenReady s f = .next (s.takeFault .notReady) := if_pos h

@[simp] theorem whenReady_ready (s : State) (f : State → State) (h : s.life = .ready) :
    whenReady s f = .next (f s) := if_neg (by simp [h])

theorem Life.cases (l : Life) : l = .uninit ∨ l = .ready := by cases l <;> simp

@[simp] theorem State.memWrite_rowCount (s : State) (r : Nat) (v : Row) : (s.memWrite r v).rowCount = s.rowCount := rfl

/-- A read of the row just written (R32). -/
theorem State.memRead_memWrite_same (s : State) (h : s.shadow.wf) (r : Nat) (v : Row) : (s.memWrite r v).memRead r = v :=
  Memory.read_write_same _ h r v

/-- A row write changes no other row (R32). -/
theorem State.memRead_memWrite_other (s : State) {r r' : Nat} (v : Row) (h : r' ≠ r) :
    (s.memWrite r v).memRead r' = s.memRead r' :=
  Memory.read_write_other _ r r' v h

/-- The lookahead of a write is not affected by the write itself (R106). -/
theorem State.lookahead_memWrite (s : State) (o : Nat) (v : Row) : (s.memWrite o v).lookahead o = s.lookahead o := by
  simp [State.lookahead, s.memRead_memWrite_other v (show o + 1 ≠ o by omega)]

/-- All that the row-write path does (R81): the row is written and one word is built from the row and the lookahead. -/
theorem State.writeRow_eq (s : State) (o : Nat) (row : Row) :
    s.writeRow o row = (s.memWrite o row,
      txOf (encWrite s.rowCount o row.c0 row.c1 row.c2 row.c3 (s.lookahead o).1 (s.lookahead o).2)) := by
  simp [State.writeRow, s.lookahead_memWrite]

/-- A row write to an existing row builds exactly one word (R89). -/
theorem State.writeRow_word (s : State) {o : Nat} (h : o < s.rowCount) (row : Row) :
    ∃ w, encWrite s.rowCount o row.c0 row.c1 row.c2 row.c3 (s.lookahead o).1 (s.lookahead o).2 = .ok w
      ∧ s.writeRow o row = (s.memWrite o row, [.tx w]) := by
  obtain ⟨w, hw⟩ := encWrite_ok h row.c0 row.c1 row.c2 row.c3 (s.lookahead o).1 (s.lookahead o).2
  exact ⟨w, hw, by rw [s.writeRow_eq, hw]; rfl⟩

/-- The word the row-write path builds, field by field (R35, R72). -/
theorem State.encWrite_lookahead (s : State) {o : Nat} (ho : o < s.rowCount) (b0 b1 b2 b3 : Bool) :
    encWrite s.rowCount o b0 b1 b2 b3 (s.lookahead o).1 (s.lookahead o).2
      = .ok (if o + 1 < s.rowCount
          then writeLayout (BitVec.ofNat 7 o) b0 b1 b2 b3 (s.memRead (o + 1)).c0 (s.memRead (o + 1)).c1
          else writeLayout (BitVec.ofNat 7 o) b0 b1 b2 b3 false false) := by
  rw [encWrite_layout (n := s.rowCount) s.mode.rowCount_le (by omega) (by omega)]
  by_cases h : o + 1 < s.rowCount
  · have : (o : Int) ≠ s.rowCount - 1 := by omega
    simp [State.lookahead, h, this]
  · simp [State.lookahead, h]

/-- All that the accepted write of an existing row does (R81). -/
theorem State.acceptRow_eq (s : State) {o : Nat} (ho : o < s.rowCount) (row : Row) :
    s.acceptRow o row = { s with
      shadow := s.shadow.write o row
      queue := [.tx (if o + 1 < s.rowCount
        then writeLayout (BitVec.ofNat 7 o) row.c0 row.c1 row.c2 row.c3 (s.memRead (o + 1)).c0 (s.memRead (o + 1)).c1
        else writeLayout (BitVec.ofNat 7 o) row.c0 row.c1 row.c2 row.c3 false false)]
      resp := some .ok } := by
  rw [State.acceptRow, s.writeRow_eq, s.encWrite_lookahead ho]
  rfl

/-- The clearing of rows changes nothing but the shadow map. -/
theorem State.clearRows_frame (s : State) (l : List Nat) :
    (s.clearRows l).1 = { s with shadow := (s.clearRows l).1.shadow } := by
  induction l generalizing s with
  | nil => rfl
  | cons i l ih =>
    simp only [State.clearRows, s.writeRow_eq]
    rw [ih (s.memWrite i .clear)]
    rfl

/-- The clearing of rows keeps the canonical form and any bound on the rows listed. -/
theorem State.clearRows_shadow (s : State) (h : s.shadow.wf) (l : List Nat) :
    (s.clearRows l).1.shadow.wf ∧ ∀ e ∈ (s.clearRows l).1.shadow, e ∈ s.shadow := by
  induction l generalizing s with
  | nil => exact ⟨h, fun e he => he⟩
  | cons i l ih =>
    simp only [State.clearRows, s.writeRow_eq]
    obtain ⟨hw, hm⟩ := ih (s.memWrite i .clear) (Memory.write_wf h i .clear)
    refine ⟨hw, fun e he => ?_⟩
    rcases Memory.mem_write (hm e he) with ⟨-, hc⟩ | he
    · exact absurd rfl hc
    · exact he

/-- A row in the list is all-false once the rows of the list are cleared, and any other row is as it was. -/
theorem State.clearRows_read (s : State) (h : s.shadow.wf) (l : List Nat) (r : Nat) :
    (s.clearRows l).1.memRead r = if r ∈ l then Row.clear else s.memRead r := by
  induction l generalizing s with
  | nil => simp [State.clearRows]
  | cons i l ih =>
    simp only [State.clearRows, s.writeRow_eq]
    rw [ih (s.memWrite i .clear) (Memory.write_wf h i .clear)]
    by_cases hr : r = i
    · subst hr
      simp [s.memRead_memWrite_same h]
    · simp [hr, s.memRead_memWrite_other _ hr]

/-- The actions of the clearing of rows are one word per row, when every row exists. -/
theorem State.clearRows_tx (s : State) (l : List Nat) (h : ∀ i ∈ l, i < s.rowCount) :
    ∀ a ∈ (s.clearRows l).2, ∃ w, a = .tx w := by
  induction l generalizing s with
  | nil => simp [State.clearRows]
  | cons i l ih =>
    obtain ⟨w, -, hw⟩ := s.writeRow_word (h i (by simp)) .clear
    simp only [State.clearRows, hw, List.cons_append, List.nil_append, List.mem_cons, forall_eq_or_imp]
    exact ⟨⟨w, rfl⟩, ih (s.memWrite i .clear) fun j hj => h j (by simp [hj])⟩

/-! What an accepted `INIT` leaves (R104), field by field. -/

@[simp] theorem State.acceptInit_life (s : State) (m : Mode) : (s.acceptInit m).life = .ready := rfl
@[simp] theorem State.acceptInit_mode (s : State) (m : Mode) : (s.acceptInit m).mode = m := rfl
@[simp] theorem State.acceptInit_shadow (s : State) (m : Mode) : (s.acceptInit m).shadow = [] := rfl
@[simp] theorem State.acceptInit_blink (s : State) (m : Mode) : (s.acceptInit m).blink = false := rfl
@[simp] theorem State.acceptInit_pwm (s : State) (m : Mode) : (s.acceptInit m).pwm = 15 := rfl
@[simp] theorem State.acceptInit_handle (s : State) (m : Mode) : (s.acceptInit m).handle = s.handle := rfl
@[simp] theorem State.acceptInit_queue (s : State) (m : Mode) : (s.acceptInit m).queue = .openDev s.params.device :: .setClock clockHz :: bringUp s.params m := rfl
@[simp] theorem State.acceptInit_inflight (s : State) (m : Mode) : (s.acceptInit m).inflight = s.inflight := rfl
@[simp] theorem State.acceptInit_resp (s : State) (m : Mode) : (s.acceptInit m).resp = some .ok := rfl
@[simp] theorem State.acceptInit_fault (s : State) (m : Mode) : (s.acceptInit m).fault = s.fault := rfl
@[simp] theorem State.acceptInit_params (s : State) (m : Mode) : (s.acceptInit m).params = s.params := rfl
@[simp] theorem State.acceptInit_port (s : State) (m : Mode) : (s.acceptInit m).port = s.port := rfl
@[simp] theorem State.acceptInit_requester (s : State) (m : Mode) : (s.acceptInit m).requester = s.requester := rfl
@[simp] theorem State.acceptInit_transport (s : State) (m : Mode) : (s.acceptInit m).transport = s.transport := rfl
@[simp] theorem State.acceptInit_schedule (s : State) (m : Mode) : (s.acceptInit m).schedule = s.schedule := rfl
@[simp] theorem State.acceptInit_abandoned (s : State) (m : Mode) : (s.acceptInit m).abandoned = s.abandoned := rfl
@[simp] theorem State.acceptInit_log (s : State) (m : Mode) : (s.acceptInit m).log = s.log := rfl
@[simp] theorem State.acceptInit_encOut (s : State) (m : Mode) : (s.acceptInit m).encOut = s.encOut := rfl
@[simp] theorem State.acceptInit_chip (s : State) (m : Mode) : (s.acceptInit m).chip = s.chip.unconstrain := rfl

/-- All that an operation can do: an encoder call is sampled; a request faults, is answered `INVALID_ARGUMENT`, or is
accepted. -/
inductive ExecCase (i : Instr) (s : State) : State → Prop where
  | sampled (r : EncResult) (hi : i.isEncoderCall = true) : ExecCase i s (s.sampled r)
  | notReady (hi : i.isEncoderCall = false) (hn : ∀ m, i ≠ .init m) (hl : s.life = .uninit) :
      ExecCase i s (s.takeFault .notReady)
  | reinit (m : Option Val) (hi : i = .init m) (hl : s.life = .ready) : ExecCase i s (s.takeFault .reinit)
  | invalid (hi : i.isEncoderCall = false) (hl : s.admits i) : ExecCase i s s.respondInvalid
  | init (m : Option Val) (k : Mode) (hi : i = .init m) (hl : s.life = .uninit) (hm : modeOperand m = some k) :
      ExecCase i s (s.acceptInit k)
  | getBlink (hi : i = .getBlink) (hl : s.life = .ready) : ExecCase i s (s.load [] (.okBool s.blink))
  | setBlink (b : Bool) (hi : i = .setBlink (.vBool b)) (hl : s.life = .ready) :
      ExecCase i s
        ({ s with blink := b }.load [.tx (if b then s.params.cmdBlinkOn else s.params.cmdBlinkOff)] .ok)
  | getPwm (hi : i = .getPwm) (hl : s.life = .ready) : ExecCase i s (s.load [] (.okLevel s.pwm))
  | setPwm (n : BitVec 4) (hi : i = .setPwm (.vInt n.toNat)) (hl : s.life = .ready) :
      ExecCase i s
        ({ s with pwm := n }.load [.tx (BitVec.ofNat 16 (s.params.pwmBase + n.toNat * s.params.pwmStep))] .ok)
  | row (o : Nat) (row : Row) (hl : s.life = .ready) (ho : o < s.rowCount)
      (hi : i = .writeAddr (.vInt o) (.vBool row.c0) (.vBool row.c1) (.vBool row.c2) (.vBool row.c3)
        ∨ ∃ k v, k < 4 ∧ i = .writeLed (.vInt o) (.vInt (k : Nat)) (.vBool v) ∧ row = (s.memRead o).subst k v) :
      ExecCase i s (s.acceptRow o row)
  | clear (hi : i = .clear) (hl : s.life = .ready) :
      ExecCase i s ((s.clearRows (List.range s.rowCount)).1.load (s.clearRows (List.range s.rowCount)).2 .ok)
  | readMap (hi : i = .readMap) (hl : s.life = .ready) :
      ExecCase i s (s.load [] (.okMap ((List.range s.rowCount).map s.memRead)))

/-- Every operation answers a next state, in one of the cases. -/
theorem exec_next (i : Instr) (s : State) : ∃ t, exec i s = .next t ∧ ExecCase i s t := by
  cases i with
  | sysDis => exact ⟨_, rfl, .sampled _ rfl⟩
  | sysEn => exact ⟨_, rfl, .sampled _ rfl⟩
  | ledOn => exact ⟨_, rfl, .sampled _ rfl⟩
  | ledOff => exact ⟨_, rfl, .sampled _ rfl⟩
  | blinkOn => exact ⟨_, rfl, .sampled _ rfl⟩
  | blinkOff => exact ⟨_, rfl, .sampled _ rfl⟩
  | master => exact ⟨_, rfl, .sampled _ rfl⟩
  | mode m => exact ⟨_, rfl, .sampled _ rfl⟩
  | pwm l => exact ⟨_, rfl, .sampled _ rfl⟩
  | write o d0 d1 d2 d3 a b => exact ⟨_, rfl, .sampled _ rfl⟩
  | init m =>
    rcases s.life.cases with h | h
    · cases hm : modeOperand m with
      | none => exact ⟨_, by simp [exec, execInit, h, hm], .invalid rfl h⟩
      | some k => exact ⟨_, by simp [exec, execInit, h, hm], .init m k rfl h hm⟩
    · exact ⟨_, by simp [exec, execInit, h], .reinit m rfl h⟩
  | getBlink =>
    rcases s.life.cases with h | h
    · exact ⟨_, by simp [exec, execGetBlink, h], .notReady rfl (by simp) h⟩
    · exact ⟨_, by simp [exec, execGetBlink, h], .getBlink rfl h⟩
  | setBlink e =>
    rcases s.life.cases with h | h
    · exact ⟨_, by simp [exec, execSetBlink, h], .notReady rfl (by simp) h⟩
    · cases hb : boolOperand e with
      | none => exact ⟨_, by simp [exec, execSetBlink, h, hb], .invalid rfl h⟩
      | some b =>
        refine ⟨_, ?_, .setBlink b (by rw [boolOperand_eq_some.1 hb]) h⟩
        simp only [exec, execSetBlink, whenReady_ready _ _ h, hb]
        cases b <;> rfl
  | getPwm =>
    rcases s.life.cases with h | h
    · exact ⟨_, by simp [exec, execGetPwm, h], .notReady rfl (by simp) h⟩
    · exact ⟨_, by simp [exec, execGetPwm, h], .getPwm rfl h⟩
  | setPwm l =>
    rcases s.life.cases with h | h
    · exact ⟨_, by simp [exec, execSetPwm, h], .notReady rfl (by simp) h⟩
    · cases hl : levelOperand l with
      | none => exact ⟨_, by simp [exec, execSetPwm, h, hl], .invalid rfl h⟩
      | some n =>
        have hv : l = .vInt n.toNat := by
          simp only [levelOperand, Option.map_eq_some_iff] at hl
          obtain ⟨k, hk, rfl⟩ := hl
          obtain ⟨rfl, hlt⟩ := indexOperand_eq_some.1 hk
          simp only [BitVec.toNat_ofNat, Val.vInt.injEq]
          omega
        exact ⟨_, by simp [exec, execSetPwm, h, hl, encPwm_level, txOf], .setPwm n (by rw [hv]) h⟩
  | writeAddr o d0 d1 d2 d3 =>
    rcases s.life.cases with h | h
    · exact ⟨_, by simp [exec, execWriteAddr, h], .notReady rfl (by simp) h⟩
    · cases ho : indexOperand s.rowCount o with
      | none => exact ⟨_, by simp [exec, execWriteAddr, h, ho], .invalid rfl h⟩
      | some k =>
        cases hr : rowOperand d0 d1 d2 d3 with
        | none => exact ⟨_, by simp [exec, execWriteAddr, h, hr], .invalid rfl h⟩
        | some row =>
          obtain ⟨rfl, hk⟩ := indexOperand_eq_some.1 ho
          obtain ⟨rfl, rfl, rfl, rfl⟩ := rowOperand_eq_some.1 hr
          exact ⟨_, by simp [exec, execWriteAddr, h, ho, hr], .row k row h hk (.inl rfl)⟩
  | writeLed o k v =>
    rcases s.life.cases with h | h
    · exact ⟨_, by simp [exec, execWriteLed, h], .notReady rfl (by simp) h⟩
    · cases ho : indexOperand s.rowCount o with
      | none => exact ⟨_, by simp [exec, execWriteLed, h, ho], .invalid rfl h⟩
      | some a =>
        cases hk : ledOperand k with
        | none => exact ⟨_, by simp [exec, execWriteLed, h, hk], .invalid rfl h⟩
        | some c =>
          cases hv : boolOperand v with
          | none => exact ⟨_, by simp [exec, execWriteLed, h, hk, hv], .invalid rfl h⟩
          | some b =>
            obtain ⟨rfl, ha⟩ := indexOperand_eq_some.1 ho
            obtain ⟨rfl, hc⟩ := indexOperand_eq_some.1 (show indexOperand 4 k = some c from hk)
            obtain rfl := boolOperand_eq_some.1 hv
            exact ⟨_, by simp [exec, execWriteLed, h, ho, hk], .row a _ h ha (.inr ⟨c, b, hc, rfl, rfl⟩)⟩
  | clear =>
    rcases s.life.cases with h | h
    · exact ⟨_, by simp [exec, execClear, h], .notReady rfl (by simp) h⟩
    · exact ⟨_, by simp [exec, execClear, h], .clear rfl h⟩
  | readMap =>
    rcases s.life.cases with h | h
    · exact ⟨_, by simp [exec, execReadMap, h], .notReady rfl (by simp) h⟩
    · exact ⟨_, by simp [exec, execReadMap, h], .readMap rfl h⟩

/-- The inversion of `exec`. -/
theorem exec_cases {i : Instr} {s t : State} (h : exec i s = .next t) : ExecCase i s t := by
  obtain ⟨u, hu, hc⟩ := exec_next i s
  rw [hu] at h
  cases h
  exact hc

end Sys2Proof.Machine
end

