-- ==== Sys2Proof/Laws/Step.lean ====
section
/-! SUPPORT. What one step can do, said once: whose move it was, and what the move did. -/

namespace Sys2Proof.Machine

/-- The state once the turn now at hand is off the schedule. -/
def State.popped (s : State) : State := { s with schedule := s.schedule.tail }

/-- All that a step that answers a next state can have done. -/
inductive StepCase (s : State) : State → Prop where
  /-- Nobody could move. -/
  | wait : StepCase s s.popped
  /-- The block ran the operation presented. -/
  | run (i : Instr) (hp : s.port = some i) (hi : i.isEncoderCall = true ∨ s.idle ∧ s.fault = .none) (t : State)
      (ht : exec i { s.popped with port := none } = .next t) : StepCase s t
  /-- ISSUE. -/
  | issue (a : Action) (rest : List Action) (hf : s.fault = .none) (hi : s.inflight = none) (hq : s.queue = a :: rest)
      (hp : s.noCall) : StepCase s (s.popped.issue a rest)
  /-- DELIVER. -/
  | deliver (r : Response) (hf : s.fault = .none) (hi : s.inflight = none) (hq : s.queue = []) (hr : s.resp = some r)
      (hp : s.noCall) : StepCase s (s.popped.deliver r)
  /-- COMPLETE. -/
  | complete (a : Action) (c : Completion) (rest : List Completion) (hi : s.inflight = some a)
      (ht : s.transport = c :: rest) : StepCase s ({ s.popped with transport := rest }.complete a c)
  /-- The requester presented its next operation. -/
  | present (i : Instr) (rest : List Instr) (hp : s.port = none) (hr : s.requester = i :: rest) :
      StepCase s { s.popped with port := some i, requester := rest }
  /-- An abandoned action completed. -/
  | stale (n : Nat) (m : List Move) (hm : s.schedule = .stale n :: m) (t : State) (ht : s.popped.staleStep n = some t) : StepCase s t
  /-- Reset. -/
  | reset (m : List Move) (hm : s.schedule = .reset :: m) : StepCase s s.popped.applyReset

/-- With nothing scheduled, whoever can move does. -/
theorem step_unscheduled {s : State} (h : s.schedule = []) : step s = defaultMove s := by
  unfold step
  split
  · simp_all
  · rfl

/-- A scheduled turn is taken. -/
theorem step_scheduled {s : State} {m : Move} {rest : List Move} (h : s.schedule = m :: rest) :
    step s = runMove m { s with schedule := rest } := by
  unfold step
  split
  · rename_i m' rest' h'
    rw [h] at h'
    cases h'
    rfl
  · simp_all

/-- With no bench's call at the port, the block's step is the request cycle's. -/
theorem State.blockStep_noCall {s : State} (h : s.noCall) : s.blockStep = s.cycleStep := by
  unfold State.blockStep
  split
  · rename_i i hi
    simp [h i hi]
  · rfl

/-- What no operation changes. -/
theorem exec_frame {i : Instr} {s t : State} (h : exec i s = .next t) :
    t.params = s.params ∧ t.port = s.port ∧ t.inflight = s.inflight ∧ t.schedule = s.schedule
      ∧ t.abandoned = s.abandoned ∧ t.requester = s.requester ∧ t.transport = s.transport ∧ t.handle = s.handle := by
  have hclear := s.clearRows_frame (List.range s.rowCount)
  cases exec_cases h with
  | clear => rw [hclear]; simp
  | init m k => simp
  | row o row => simp [State.acceptRow, State.writeRow_eq]
  | _ => simp

/-- An encoder call changes nothing but the sampled output. -/
theorem exec_call {i : Instr} {s t : State} (h : exec i s = .next t) (hi : i.isEncoderCall = true) :
    ∃ r, t = s.sampled r := by
  cases i <;> simp only [Instr.isEncoderCall, Bool.false_eq_true] at hi
  all_goals cases h; exact ⟨_, rfl⟩

/-- What a completion leaves as it was, and what it may do (R44, R90, R93). -/
theorem State.complete_frame (s : State) (a : Action) (c : Completion) :
    let t := s.complete a c
    t.params = s.params ∧ t.port = s.port ∧ t.inflight = none ∧ t.queue = s.queue ∧ t.resp = s.resp ∧ t.life = s.life
      ∧ t.mode = s.mode ∧ t.shadow = s.shadow ∧ t.blink = s.blink ∧ t.pwm = s.pwm ∧ t.requester = s.requester
      ∧ t.schedule = s.schedule
      ∧ (t.log = s.log ∨ ∃ w, a = .tx w ∧ t.log = s.log ++ [.report w])
      ∧ (s.fault ≠ .none → t.fault = s.fault ∧ t.handle = s.handle)
      ∧ (t.fault = s.fault ∨ t.fault = .openFailed) := by
  cases a <;> cases c <;> by_cases hf : s.fault = .none <;> simp [State.complete, State.takeFault, hf]

/-- All that the completion of an abandoned action does: it is used up, and the chip takes it (R45, R102). -/
theorem State.staleStep_cases {n : Nat} {s t : State} (h : s.staleStep n = some t) :
    ∃ a c more, s.abandoned[n]? = some a ∧ s.transport = c :: more ∧ t = { s with
      abandoned := s.abandoned.eraseIdx n
      transport := more
      chip := s.chip.completed s.params.lastRowTarget a.rowCount a.action c } := by
  unfold State.staleStep at h
  split at h
  · rename_i a c more ha ht
    cases h
    exact ⟨a, c, more, ha, ht, rfl⟩
  · cases h

/-- The completion of an abandoned action changes nothing of the block (R102). -/
theorem State.staleStep_frame {n : Nat} {s t : State} (h : s.staleStep n = some t) :
    ∃ left more chip, t = { s with abandoned := left, transport := more, chip := chip } := by
  obtain ⟨_, _, more, -, -, rfl⟩ := State.staleStep_cases h
  exact ⟨_, more, _, rfl⟩

/-- When the block runs an operation: a bench's encoder call at any time, a request only when idle and not faulted. -/
theorem State.blockStep_run {s : State} {i : Instr} (h : s.blockStep = some (.run i)) :
    s.port = some i ∧ (i.isEncoderCall = true ∨ s.idle ∧ s.fault = .none) := by
  have cycle : s.cycleStep = some (.run i) → s.port = some i ∧ (s.idle ∧ s.fault = .none) := by
    intro h
    unfold State.cycleStep at h
    split at h
    · simp at h
    · rename_i hn
      simp only [ne_eq, not_or, not_not] at hn
      split at h
      · simp at h
      · simp at h
      · rename_i hq hr
        simp only [Option.map_eq_some_iff, BlockStep.run.injEq] at h
        obtain ⟨j, hj, rfl⟩ := h
        exact ⟨hj, ⟨hq, hn.2, hr⟩, hn.1⟩
  unfold State.blockStep at h
  split at h
  · rename_i j hj
    split at h
    · simp only [Option.some.injEq, BlockStep.run.injEq] at h
      subst h
      exact ⟨hj, .inl ‹_›⟩
    · obtain ⟨hp, hc⟩ := cycle h
      exact ⟨hp, .inr hc⟩
  · obtain ⟨hp, hc⟩ := cycle h
    exact ⟨hp, .inr hc⟩

/-- A block step that runs no operation is the request cycle's, and no bench's call is at the port. -/
theorem State.blockStep_cycle {s : State} {b : BlockStep} (h : s.blockStep = some b) (hb : ∀ i, b ≠ .run i) :
    s.noCall ∧ s.fault = .none ∧ s.inflight = none
      ∧ ((∃ a rest, b = .issue a rest ∧ s.queue = a :: rest)
        ∨ ∃ r, b = .deliver r ∧ s.queue = [] ∧ s.resp = some r) := by
  have hc : s.noCall ∧ s.cycleStep = some b := by
    unfold State.blockStep at h
    split at h
    · rename_i i hi
      split at h
      · simp only [Option.some.injEq] at h
        exact absurd h.symm (hb i)
      · rename_i he
        exact ⟨fun j hj => (by rw [hi] at hj; cases hj; simpa using he), h⟩
    · rename_i hn
      exact ⟨fun j hj => (by simp [hn] at hj), h⟩
  refine ⟨hc.1, ?_⟩
  have h := hc.2
  unfold State.cycleStep at h
  split at h
  · simp at h
  · rename_i hn
    simp only [ne_eq, not_or, not_not] at hn
    refine ⟨hn.1, hn.2, ?_⟩
    split at h
    · rename_i a rest hq
      simp only [Option.some.injEq] at h
      exact .inl ⟨a, _, h.symm, hq⟩
    · rename_i r hq hr
      simp only [Option.some.injEq] at h
      exact .inr ⟨r, h.symm, hq, hr⟩
    · simp only [Option.map_eq_some_iff] at h
      obtain ⟨j, -, hj⟩ := h
      exact absurd hj.symm (hb j)

/-- The block's move, its turn being off the schedule. -/
theorem blockMove_cases {s t : State} {m : List Move} (hs : s.schedule.tail = m)
    (h : blockMove { s with schedule := m } = some (.next t)) : StepCase s t := by
  subst hs
  unfold blockMove at h
  split at h
  · simp at h
  · rename_i i hb
    obtain ⟨hp, hi⟩ := State.blockStep_run hb
    simp only [Option.some.injEq] at h
    exact StepCase.run (s := s) i hp hi t h
  · rename_i a rest hb
    obtain ⟨hp, hf, hi, (⟨a', rest', he, hq⟩ | ⟨r, he, -⟩)⟩ := State.blockStep_cycle hb (by simp)
    · cases he
      cases h
      exact .issue a rest hf hi hq hp
    · cases he
  · rename_i r hb
    obtain ⟨hp, hf, hi, (⟨a', rest', he, hq⟩ | ⟨r', he, hq, hr⟩)⟩ := State.blockStep_cycle hb (by simp)
    · cases he
    · cases he
      cases h
      exact .deliver r hf hi hq hr hp

theorem transportStep_cases {s t : State} (h : s.popped.transportStep = some t) : StepCase s t := by
  unfold State.transportStep at h
  split at h
  · rename_i a c rest hi ht
    cases h
    exact .complete a c rest hi ht
  · simp at h

theorem requesterStep_cases {s t : State} (h : s.popped.requesterStep = some t) : StepCase s t := by
  unfold State.requesterStep at h
  split at h
  · rename_i i rest hp hr
    cases h
    exact .present i rest hp hr
  · simp at h

/-- The inversion of `step`. -/
theorem step_cases {s t : State} (h : step s = .next t) : StepCase s t := by
  unfold step at h
  split at h
  · rename_i m rest hm
    have hp : { s with schedule := rest } = s.popped := by simp [State.popped, hm]
    rw [hp] at h
    cases m with
    | block =>
      simp only [runMove] at h
      cases hb : blockMove s.popped with
      | none => rw [hb] at h; cases h; exact .wait
      | some o => rw [hb] at h; cases h; exact blockMove_cases (s := s) rfl hb
    | transport =>
      simp only [runMove, Host.Outcome.next.injEq] at h
      cases ht : s.popped.transportStep with
      | none => rw [ht] at h; cases h; exact .wait
      | some u => rw [ht] at h; cases h; exact transportStep_cases (s := s) ht
    | requester =>
      simp only [runMove, Host.Outcome.next.injEq] at h
      cases hr : s.popped.requesterStep with
      | none => rw [hr] at h; cases h; exact .wait
      | some u => rw [hr] at h; cases h; exact requesterStep_cases (s := s) hr
    | stale n =>
      simp only [runMove, Host.Outcome.next.injEq] at h
      cases hr : s.popped.staleStep n with
      | none => rw [hr] at h; cases h; exact .wait
      | some u => rw [hr] at h; cases h; exact .stale n rest hm _ hr
    | reset =>
      simp only [runMove, Host.Outcome.next.injEq] at h
      cases h
      exact .reset rest hm
  · rename_i hm
    have hp : s.popped = s := by rcases s; simp_all [State.popped]
    unfold defaultMove at h
    split at h
    · rename_i o hb
      subst h
      exact blockMove_cases (m := s.schedule) (by simp [hm]) hb
    · split at h
      · rename_i u ht
        cases h
        exact transportStep_cases (s := s) (by rw [hp]; exact ht)
      · split at h
        · rename_i u hr
          cases h
          exact requesterStep_cases (s := s) (by rw [hp]; exact hr)
        · split at h
          · cases h
          · cases h
            have := StepCase.wait (s := s)
            rwa [hp] at this

/-- A step never refuses. -/
theorem step_not_refused (s : State) (r : Refusal) : step s ≠ .refused r := by
  have hb : ∀ u, blockMove u ≠ some (.refused r) := by
    intro u h
    unfold blockMove at h
    split at h
    · simp at h
    · rename_i i _
      obtain ⟨t, ht, -⟩ := exec_next i { u with port := none }
      rw [ht] at h
      simp at h
    · simp at h
    · simp at h
  unfold step
  split
  · rename_i m rest _
    cases m <;> simp only [runMove, ne_eq, reduceCtorEq, not_false_eq_true]
    cases h : blockMove { s with schedule := rest } with
    | none => simp
    | some o => exact fun ho => hb _ (by rw [h, ← ho]; rfl)
  · unfold defaultMove
    split
    · rename_i o h
      exact fun ho => hb s (by rw [h, ho])
    · repeat' split
      all_goals simp

end Sys2Proof.Machine
end

