-- ==== Sys2Proof/Tests/Slice0.lean ====
section
/-! SUPPORT. The tests, each one step or one call, with its source in `95_test_vectors.md` or in a rule's example; and for
each statement with hypotheses a witness that meets them. -/

namespace Sys2Proof.Tests

open Sys2Proof Sys2Proof.Machine

/-- The state an operation leaves. -/
def after (i : Instr) (s : State) : Option State :=
  match exec i s with
  | .next t => some t
  | .fault _ => none
  | .refused _ => none

/-- The state a step leaves. -/
def stepped (s : State) : Option State :=
  match step s with
  | .next t => some t
  | .fault _ => none
  | .refused _ => none

/-- After a bare `INIT` has completed: 8-COM, PMOS, every row all-false but the rows listed. -/
def ready8 (shadow : Memory) : State := { State.reset with life := .ready, mode := ⟨false, true⟩, pwm := 15, shadow }

/-- The same in the mode `MODE_16NMOS`. -/
def ready16 (shadow : Memory) : State := { ready8 shadow with mode := ⟨true, false⟩ }

/-- Row values by their column letters, as the vectors write them. -/
abbrev ttff : Row := ⟨true, true, false, false⟩
abbrev tftf : Row := ⟨true, false, true, false⟩
abbrev fttt : Row := ⟨false, true, true, true⟩

/-! ### Well-formedness refuses ill-formed terms -/

theorem test_wf_refuses_unknown_mode : (Instr.mode 0x8401).wf = false ∧ (Instr.mode (-1)).wf = false := by decide

theorem test_wf_refuses_level_out_of_range : (Instr.pwm 16).wf = false ∧ (Instr.pwm (-1)).wf = false := by decide

theorem test_wf_refuses_offset_past_the_field :
    (Instr.write 128 true true true true true true).wf = false ∧ (Instr.write (-1) true true true true true true).wf = false
      ∧ (Instr.write 127 true true true true true true).wf = true := by decide

/-! ### Decoding: words written bit by bit from R48, R49, R53 and the opcode table -/

theorem test_decode_sys_dis : decode .reference 0b1000000000000000 = .ok .sysDis := by rfl
theorem test_decode_sys_en : decode .reference 0b1000000000100000 = .ok .sysEn := by rfl
theorem test_decode_led_off : decode .reference 0b1000000001000000 = .ok .ledOff := by rfl
theorem test_decode_led_on : decode .reference 0b1000000001100000 = .ok .ledOn := by rfl
theorem test_decode_blink_off : decode .reference 0b1000000100000000 = .ok .blinkOff := by rfl
theorem test_decode_blink_on : decode .reference 0b1000000100100000 = .ok .blinkOn := by rfl
theorem test_decode_master : decode .reference 0b1000001100000000 = .ok .master := by rfl
theorem test_decode_mode_16nmos : decode .reference 0b1000010010000000 = .ok (.mode 0x8480) := by rfl
theorem test_decode_pwm_3 : decode .reference 0b1001010001100000 = .ok (.pwm 3) := by rfl

/-- V1: `101 0000101 1 0 1 0 0 1`. -/
theorem test_decode_write_v1 : decode .reference 0b1010000101101001 = .ok (.write 5 true false true false false true) := by
  rfl

/-- One bit at a time: `D1` is bit 4, `D3` bit 2, `LA0` bit 1 (vectors 2.4). -/
theorem test_decode_write_bits :
    decode .reference 0xA010 = .ok (.write 0 false true false false false false)
      ∧ decode .reference 0xA004 = .ok (.write 0 false false false true false false)
      ∧ decode .reference 0xA002 = .ok (.write 0 false false false false true false) := by
  refine ⟨?_, ?_, ?_⟩ <;> rfl

/-- R57: a word of another ID; R37: half a word. -/
theorem test_decode_refuses_by_name :
    decode .reference 0xC000 = .error (.notEmitted 0xC000) ∧ decodeBytes .reference [0xA0] = .error .truncated := by
  refine ⟨?_, ?_⟩ <;> rfl

/-- R37: the high byte travels first, and the rest of the stream is left. -/
theorem test_decode_bytes_v1 :
    decodeBytes .reference [0xA1, 0x69, 0x80] = .ok (.write 5 true false true false false true, [0x80]) := by rfl

theorem test_decode_table_word :
    decodeTableWord 16 0x95E0 = some (.pwm 15) ∧ decodeTableWord 16 0x0000 = none ∧ decodeTableWord 24 0x18000 = none := by
  refine ⟨?_, ?_, ?_⟩ <;> rfl

/-- A step runs the word presented, on the machine right after reset (V1). -/
theorem test_step_runs_table_word :
    (stepped (State.reset.withFetchWord 16 0xA169)).map (·.encOut) = some (some (.ok 0xA169)) := by rfl

/-- R59's examples, with a comment after one of them. -/
theorem test_read_request_examples :
    readRequest "WRITE_LED 5, 1, true".toList = some (.writeLed (.vInt 5) (.vInt 1) (.vBool true))
      ∧ readRequest "INIT MODE_16NMOS ; a mode".toList = some (.init (some (.vInt 0x8480)))
      ∧ readRequest "INIT".toList = some (.init none) := by decide

theorem test_read_request_values :
    readRequest "WRITE_ADDR -1, 0x1F, 2.5, false, true".toList
      = some (.writeAddr (.vInt (-1)) (.vInt 31) .vOther (.vBool false) (.vBool true))
      ∧ readRequest "SET_PWM".toList = none := by decide

/-! ### The encoder (vectors 2.1 to 2.4) -/

theorem test_enc_fixed_words :
    (after .sysDis .reset).map (·.encOut) = some (some (.ok 0x8000))
      ∧ (after .sysEn .reset).map (·.encOut) = some (some (.ok 0x8020))
      ∧ (after .ledOn .reset).map (·.encOut) = some (some (.ok 0x8060))
      ∧ (after .ledOff .reset).map (·.encOut) = some (some (.ok 0x8040))
      ∧ (after .blinkOn .reset).map (·.encOut) = some (some (.ok 0x8120))
      ∧ (after .blinkOff .reset).map (·.encOut) = some (some (.ok 0x8100))
      ∧ (after .master .reset).map (·.encOut) = some (some (.ok 0x8300)) := by decide

theorem test_enc_mode :
    (after (.mode 0x8580) .reset).map (·.encOut) = some (some (.ok 0x8580))
      ∧ (after (.mode 0x8401) .reset).map (·.encOut) = some (some .invalidArgument) := by decide

theorem test_enc_pwm :
    (after (.pwm 7) .reset).map (·.encOut) = some (some (.ok 0x94E0))
      ∧ (after (.pwm 16) .reset).map (·.encOut) = some (some .invalidArgument) := by decide

theorem test_enc_write_8com :
    encWrite 64 62 true true true true true true = .ok 0xAFBF ∧ encWrite 64 63 true true true true true true = .ok 0xAFFC
      ∧ encWrite 64 95 false false false false false false = .outOfRange := by decide

theorem test_enc_write_16com :
    (after (.write 94 true true true true true true) (ready16 [])).map (·.encOut) = some (some (.ok 0xB7BF))
      ∧ (after (.write 96 false false false false false false) (ready16 [])).map (·.encOut) = some (some .outOfRange) := by
  decide

/-! ### Configuration requests (vectors 2.5) -/

theorem test_init_16nmos :
    (after (.init (some (.vInt 0x8480))) .reset).map (fun t => (t.life, t.mode.bits, t.rowCount, t.queue.drop 2))
      = some (.ready, 0b01, 96, [.tx 0x8000, .tx 0x8480, .tx 0x8300, .tx 0x8020, .tx 0x8060, .tx 0x95E0, .tx 0x8100]) := by
  decide

theorem test_init_refuses_unknown_mode :
    (after (.init (some (.vInt 0x8600))) .reset).map (fun t => (t.life, t.fault, t.log))
      = some (.uninit, .none, [.response .invalidArgument]) := by decide

theorem test_get_blink_after_init : (after .getBlink (ready8 [])).map (·.resp) = some (some (.okBool false)) := by decide

theorem test_set_blink_true :
    (after (.setBlink (.vBool true)) (ready8 [])).map (fun t => (t.blink, t.queue)) = some (true, [.tx 0x8120]) := by decide

/-- V8. -/
theorem test_set_blink_refuses_integer :
    (after (.setBlink (.vInt 1)) (ready8 [])).map (fun t => (t.blink, t.queue, t.log))
      = some (false, [], [.response .invalidArgument]) := by decide

theorem test_get_pwm_after_init : (after .getPwm (ready8 [])).map (·.resp) = some (some (.okLevel 15)) := by decide

theorem test_set_pwm_7 :
    (after (.setPwm (.vInt 7)) (ready8 [])).map (fun t => (t.pwm, t.queue)) = some (7, [.tx 0x94E0]) := by decide

/-- V7. -/
theorem test_set_pwm_refuses_16 :
    (after (.setPwm (.vInt 16)) (ready8 [])).map (fun t => (t.pwm, t.queue, t.log))
      = some (15, [], [.response .invalidArgument]) := by decide

/-! ### Memory requests (vectors 2.6) -/

/-- The source's example: the lookahead is row 6's first two columns. -/
theorem test_write_addr_lookahead :
    (after (.writeAddr (.vInt 5) (.vBool true) (.vBool false) (.vBool true) (.vBool false)) (ready8 [(6, fttt)])).map
        (fun t => (t.queue, t.shadow))
      = some ([.tx 0xA169], [(5, tftf), (6, fttt)]) := by decide

/-- Row 0 is no lookahead of the last row. -/
theorem test_write_addr_last_row :
    (after (.writeAddr (.vInt 63) (.vBool true) (.vBool false) (.vBool false) (.vBool true)) (ready8 [(0, ttff)])).map
        (fun t => (t.queue, t.memRead 0))
      = some ([.tx 0xAFE4], ttff) := by decide

theorem test_write_led_changes_one_column :
    (after (.writeLed (.vInt 0) (.vInt 1) (.vBool true)) (ready8 [(0, tftf)])).map (fun t => (t.queue, t.memRead 0))
      = some ([.tx 0xA038], ⟨true, true, true, false⟩) := by decide

/-- A `WRITE_LED` that leaves its row all-false takes the row off the list. -/
theorem test_write_led_clears_row :
    (after (.writeLed (.vInt 95) (.vInt 3) (.vBool false)) (ready16 [(95, ⟨false, false, false, true⟩)])).map
        (fun t => (t.queue, t.shadow))
      = some ([.tx 0xB7C0], []) := by decide

theorem test_clear_word_order :
    (after .clear (ready8 [(1, ttff)])).map (fun t => (t.queue.take 3, t.queue.length, t.shadow))
      = some ([.tx 0xA003, .tx 0xA040, .tx 0xA080], 64, []) := by rfl

theorem test_read_map :
    (after .readMap (ready8 [(0, ⟨true, false, false, false⟩)])).map (·.resp)
      = some (some (.okMap (⟨true, false, false, false⟩ :: List.replicate 63 .clear))) := by rfl

/-! ### Faults, reports, reset and the chip (vectors 2.7, P4 to P6, R45) -/

/-- P4. -/
theorem test_get_pwm_before_init :
    (after .getPwm .reset).map (fun t => (t.fault, t.life, t.log)) = some (.notReady, .uninit, []) := by decide

/-- P6, step 6. -/
theorem test_second_init :
    (after (.init none) (ready16 [(0, ttff)])).map (fun t => (t.fault, t.rowCount, t.shadow, t.pwm))
      = some (.reinit, 96, [(0, ttff)], 15) := by decide

/-- P5, step 2: a failed `Tx` is reported and is no longer in flight. -/
theorem test_failed_tx_is_reported :
    (stepped { ready8 [] with inflight := some (.tx 0xA0A4), resp := some .ok, transport := [.error] }).map
        (fun t => (t.log, t.inflight, t.fault))
      = some ([.report 0xA0A4], none, .none) := by decide

/-- A failed `Open` faults and issues nothing more. -/
theorem test_failed_open_faults :
    (stepped { ready8 [] with inflight := some (.openDev 0), queue := [.setClock 2560000], resp := some .ok,
                              transport := [.error] }).map (fun t => (t.fault, t.queue, t.log))
      = some (.openFailed, [.setClock 2560000], []) := by decide

/-- A word goes out high byte first, with the handle. -/
theorem test_issue_sends_two_bytes :
    (stepped { ready8 [] with handle := 7, queue := [.tx 0xA169], resp := some .ok }).map (·.log)
      = some [.call (.transmit 7 0xA1 0x69)] := by decide

/-- R102. -/
theorem test_reset_input :
    (stepped { ready8 [] with fault := .reinit, port := some .clear, schedule := [.reset] }).map
        (fun t => (t.life, t.fault, t.port))
      = some (.uninit, .none, none) := by decide

/-- After a reset that abandoned `Tx(w)` in an 8-COM mode, when the transport completes it; chip rows 5, 6 and 7 are known. -/
def abandonedTx (w : Word) (status : Completion) : State :=
  { State.reset with
    abandoned := [⟨.tx w, 64⟩]
    transport := [status]
    schedule := [.stale 0]
    chip := ⟨0, 1, [(5, ttff), (6, ttff), (7, fttt)]⟩ }

/-- R45: an abandoned write word that completes `ok` sets its row and the next row's first two columns, and no other cell. -/
theorem test_abandoned_write_reaches_its_rows :
    (stepped (abandonedTx 0xA169 (.ok 0))).map (fun t => (t.chip.read 5, t.chip.read 6, t.chip.read 7, t.abandoned))
      = some (tftf, ⟨false, true, false, false⟩, fttt, []) := by decide

/-- R45: an abandoned command word that completes `ok` changes no cell. R102: a failed one is not reported. -/
theorem test_abandoned_command_and_report :
    (stepped (abandonedTx 0x8120 (.ok 0))).map (·.chip) = some (abandonedTx 0x8120 (.ok 0)).chip
      ∧ (stepped (abandonedTx 0xA169 .error)).map (fun t => (t.log, t.fault, t.life)) = some ([], .none, .uninit) := by
  decide

/-- R102 orders no completions: the later of two abandoned actions may complete while the earlier never does. -/
theorem test_later_abandoned_completes_first :
    (stepped { abandonedTx 0x8120 (.ok 0) with abandoned := [⟨.tx 0xA000, 64⟩, ⟨.tx 0xA169, 64⟩], schedule := [.stale 1] }).map
        (fun t => (t.chip.read 5, t.abandoned))
      = some (tftf, [⟨.tx 0xA000, 64⟩]) := by decide

/-- R45: a write word sets its row and pre-stages the next; columns 2 and 3 of the next row stay. -/
theorem test_chip_write :
    ((chipApply .none 64 ⟨0, 1, [(6, ⟨true, false, true, false⟩)]⟩ 0xA169).read 5,
      (chipApply .none 64 ⟨0, 1, [(6, ⟨true, false, true, false⟩)]⟩ 0xA169).read 6)
      = (tftf, ⟨false, true, true, false⟩) := by decide

/-- R111: under `row0` the last row's write clears the first two columns of chip row 0. -/
theorem test_chip_last_row_row0 : (chipApply .row0 64 ⟨0, 1, [(0, ⟨true, true, true, true⟩)]⟩ 0xAFFC).read 0
    = ⟨false, false, true, true⟩ := by decide

/-! ### Witnesses: concrete states and operands that meet a statement's hypotheses, clause by clause -/

/-- `ready8` with a word queued and its response owed. -/
def queued : State := { ready8 [] with queue := [.tx 0xA000], resp := some .ok, transport := [.ok 0] }

/-- `ready8` with an action in flight and its response owed. -/
def flying (a : Action) (c : List Completion) : State :=
  { ready8 [] with inflight := some a, resp := some .ok, transport := c }

/-- Chip RAM with every row that a mode can have all-false. -/
def clearChip : Chip := ⟨0, 1, (List.range 96).map fun r => (r, .clear)⟩

theorem noCall_of_port_none {s : State} (h : s.port = none) : s.noCall := by simp [State.noCall, h]

theorem witness_reference_parameters : Params.reference.Valid ∧ Params.reference.Separated := by decide

theorem witness_EncModeIsTheIdentityOnTheModeConstants :
    (0x8400 : Int) ∈ ([0x8400, 0x8480, 0x8500, 0x8580] : List Int)
      ∧ (0x8580 : Int) ∈ ([0x8400, 0x8480, 0x8500, 0x8580] : List Int)
      ∧ (0x8401 : Int) ∉ ([0x8400, 0x8480, 0x8500, 0x8580] : List Int)
      ∧ (0x8600 : Int) ∉ ([0x8400, 0x8480, 0x8500, 0x8580] : List Int) := by decide

theorem witness_EncPwmIsBasePlusLevelTimesStep :
    Params.reference.Valid ∧ ((0 : Int) ≤ 0 ∧ (0 : Int) ≤ 15) ∧ ((0 : Int) ≤ 15 ∧ (15 : Int) ≤ 15) ∧ (-1 : Int) < 0
      ∧ (15 : Int) < 16 ∧ encPwm .reference 15 = encPwm .reference 15 := by decide

theorem witness_EncWriteIsTheFieldLayout :
    ((0 : Int) ≤ 0 ∧ (0 : Int) + 1 < (64 : Nat)) ∧ ((0 : Int) ≤ 62 ∧ (62 : Int) + 1 < (64 : Nat))
      ∧ (63 : Int) + 1 = (64 : Nat) ∧ (95 : Int) + 1 = (96 : Nat) ∧ (-1 : Int) < 0 ∧ ((64 : Nat) : Int) ≤ 64 := by decide

/-- The largest words, with and without lookahead (R72). -/
theorem witness_WriteWordsAreBounded :
    encWrite 96 95 true true true true true true = .ok 0xB7FC
      ∧ encWrite 96 94 true true true true true true = .ok 0xB7BF ∧ (0xB7BF : Word).getLsbD 0 = true
      ∧ encWrite 64 63 true true true true true true = .ok 0xAFFC
      ∧ encWrite 64 62 true true true true true true = .ok 0xAFBF := by decide

theorem witness_DecodeOfEncodeIsTheCall :
    Params.reference.Valid ∧ Params.reference.Separated ∧ (Instr.write 127 true true true true true true).wf = true
      ∧ encode .reference (.write 127 true true true true true true) = some 0xBFFF ∧ (Instr.pwm 15).wf = true
      ∧ encode .reference (.pwm 15) = some 0x95E0 := by decide

theorem witness_EncodeOfDecodeIsTheWord : decode .reference 0xBFFF = .ok (.write 127 true true true true true true) := by
  rfl

theorem witness_OtherIdsAreNotEmitted :
    (0x7FFF : Word).extractLsb 15 13 ≠ (0b100 : BitVec 3) ∧ (0x7FFF : Word).extractLsb 15 13 ≠ (0b101 : BitVec 3)
      ∧ (0xC000 : Word).extractLsb 15 13 ≠ (0b100 : BitVec 3) ∧ (0xC000 : Word).extractLsb 15 13 ≠ (0b101 : BitVec 3) := by
  decide

theorem witness_ModeWordsAndRowCounts : modeOf 0x8580 = some ⟨true, true⟩ := by decide

theorem witness_StepRunsThePresentedOperation :
    (({ queued with port := some .ledOff } : State).schedule = [] ∧ Instr.ledOff.isEncoderCall = true)
      ∧ ({ ready8 [] with port := some .clear } : State).schedule = []
      ∧ ({ ready8 [] with port := some .clear } : State).idle
      ∧ ({ ready8 [] with port := some .clear } : State).fault = .none := by decide

theorem witness_StepRunsTheDecodedWord : decodeTableWord 16 0xA169 = some (.write 5 true false true false false true) := by
  rfl

theorem witness_InitBringsTheBlockUp :
    State.reset.life = .uninit ∧ (⟨true, false⟩ : Mode).word.toNat = 0x8480 ∧ (⟨false, true⟩ : Mode).word.toNat = 0x8500 := by
  decide

/-- The hypotheses of the statements about a request after `INIT`, in both row counts. -/
theorem witness_requests_after_init :
    (ready8 [(6, fttt)]).life = .ready ∧ (ready8 [(6, fttt)]).shadow.wf ∧ 0 < (ready8 [(6, fttt)]).rowCount
      ∧ 63 < (ready8 [(6, fttt)]).rowCount ∧ (ready16 [(95, ttff)]).life = .ready ∧ (ready16 [(95, ttff)]).shadow.wf
      ∧ 95 < (ready16 [(95, ttff)]).rowCount := by decide

/-- The hypotheses of the statements about a request before `INIT`. -/
theorem witness_requests_before_init :
    State.reset.life = .uninit ∧ State.reset.fault = .none ∧ Instr.clear.isEncoderCall = false
      ∧ ∀ m, Instr.clear ≠ .init m := by simp [State.reset, State.resetWith, Instr.isEncoderCall]

theorem witness_WriteLedIsWriteAddrOfTheChangedRow :
    63 < (ready8 [(63, ttff)]).rowCount ∧ 3 < 4
      ∧ (⟨true, true, false, true⟩ : Row) = ((ready8 [(63, ttff)]).memRead 63).subst 3 true := by decide

theorem witness_ReadMapAfterWriteAddrShowsTheRow :
    ∃ t, exec (.writeAddr (.vInt (63 : Nat)) (.vBool true) (.vBool false) (.vBool false) (.vBool true)) (ready8 [])
      = .next t := ⟨_, rfl⟩

/-- Each cause of R87 at the edge of its range, and the last value that is no cause. -/
theorem witness_BadOperandsAreRefusedAndChangeNothing :
    State.reset.admits (.init (some (.vInt 0x8600))) ∧ (Instr.init (some (.vInt 0x8600))).hasBadOperand 64
      ∧ ¬ (Instr.init none).hasBadOperand 64
      ∧ (ready8 []).admits (.setPwm (.vInt 16)) ∧ (Instr.setPwm (.vInt 16)).hasBadOperand 64
      ∧ ¬ (Instr.setPwm (.vInt 15)).hasBadOperand 64
      ∧ (Instr.setBlink (.vInt 1)).hasBadOperand 64 ∧ ¬ (Instr.setBlink (.vBool true)).hasBadOperand 64 := by
  refine ⟨rfl, ⟨_, rfl, by decide⟩, by simp [Instr.hasBadOperand], rfl, ?_, ?_, by simp [Instr.hasBadOperand],
    by simp [Instr.hasBadOperand]⟩
  · simp only [Instr.hasBadOperand, ne_eq, Val.vInt.injEq]
    omega
  · simp only [Instr.hasBadOperand, ne_eq, Val.vInt.injEq, not_forall]
    exact ⟨15, by decide, by decide, by decide⟩

theorem witness_BadOperands_of_rows :
    (ready8 []).admits .clear
      ∧ (Instr.writeAddr (.vInt 64) (.vBool true) (.vBool true) (.vBool true) (.vBool true)).hasBadOperand 64
      ∧ ¬ (Instr.writeAddr (.vInt 63) (.vBool true) (.vBool true) (.vBool true) (.vBool true)).hasBadOperand 64
      ∧ (Instr.writeLed (.vInt 0) (.vInt 4) (.vBool true)).hasBadOperand 64 := by
  refine ⟨rfl, .inl ?_, ?_, .inr (.inl ?_)⟩
  · simp only [ne_eq, Val.vInt.injEq]
    omega
  · simp [Instr.hasBadOperand]
  · simp only [ne_eq, Val.vInt.injEq]
    omega

theorem witness_SecondInitFaults : (ready8 []).life = .ready ∧ (ready8 []).fault = .none := by decide

theorem witness_IssueHandsTheHeadToTheTransport :
    queued.schedule = [] ∧ queued.noCall ∧ queued.fault = .none ∧ queued.inflight = none ∧ queued.queue = [.tx 0xA000] :=
  ⟨rfl, noCall_of_port_none rfl, rfl, rfl, rfl⟩

theorem witness_DeliverGivesTheOwedResponse :
    let s := { queued with queue := [] }
    s.schedule = [] ∧ s.noCall ∧ s.fault = .none ∧ s.inflight = none ∧ s.queue = [] ∧ s.resp = some .ok :=
  ⟨rfl, noCall_of_port_none rfl, rfl, rfl, rfl, rfl⟩

theorem witness_CompletionsClearInflight :
    (flying (.openDev 0) [.ok 7]).schedule = [] ∧ (flying (.openDev 0) [.ok 7]).noCall
      ∧ (flying (.openDev 0) [.ok 7]).fault = .none ∧ (flying (.openDev 0) [.ok 7]).transport = [.ok 7]
      ∧ (flying (.tx 0xA169) [.ok 7]).inflight = some (.tx 0xA169)
      ∧ (flying (.setClock clockHz) [.ok 7]).inflight = some (.setClock 2560000) :=
  ⟨rfl, noCall_of_port_none rfl, rfl, rfl, rfl, rfl⟩

theorem witness_FailedOpenOrSetClockFaults :
    (flying (.setClock clockHz) [.error]).schedule = [] ∧ (flying (.setClock clockHz) [.error]).noCall
      ∧ (flying (.setClock clockHz) [.error]).fault = .none ∧ (∀ w, Action.setClock clockHz ≠ .tx w)
      ∧ (flying (.setClock clockHz) [.error]).transport = [.error] :=
  ⟨rfl, noCall_of_port_none rfl, rfl, by simp, rfl⟩

theorem witness_FailedTxIsReportedAndTheCycleGoesOn :
    (flying (.tx 0xA0A4) [.error]).schedule = [] ∧ (flying (.tx 0xA0A4) [.error]).noCall
      ∧ (flying (.tx 0xA0A4) [.error]).fault = .none ∧ (flying (.tx 0xA0A4) [.error]).transport = [.error]
      ∧ (flying (.tx 0xA0A4) [.error]).queue = [] ∧ (flying (.tx 0xA0A4) [.error]).resp = some .ok
      ∧ ({ flying (.tx 0xA0A4) [.error] with queue := [.tx 0xA100] } : State).queue = [.tx 0xA100] :=
  ⟨rfl, noCall_of_port_none rfl, rfl, rfl, rfl, rfl, rfl⟩

theorem witness_NoActionIsIssuedWhileOneIsInFlight :
    ∃ t, (flying (.tx 0xA0A4) [.error]).inflight = some (.tx 0xA0A4) ∧ step (flying (.tx 0xA0A4) [.error]) = .next t :=
  ⟨_, rfl, rfl⟩

theorem witness_RequestsAreHeldUntilTheBlockIsIdle :
    ∃ t, step { queued with port := some .clear } = .next t ∧ t.port = some .clear ∧ Instr.clear.isEncoderCall = false :=
  ⟨_, rfl, rfl, rfl⟩

theorem witness_FaultIsStickyAndStopsTheBlock :
    ∃ t, step { queued with fault := .openFailed, schedule := [.block] } = .next t ∧ t.fault ≠ .none :=
  ⟨_, rfl, by decide⟩

theorem witness_FaultedRunsFail :
    let s := { State.reset with fault := .notReady, port := some (.init none) }
    s.schedule = [] ∧ s.noCall ∧ s.inflight = none ∧ s.port ≠ none ∧ s.fault = .notReady := by
  refine ⟨rfl, ?_, rfl, by decide, rfl⟩
  rintro i h
  cases h
  rfl

theorem witness_StuckTransportBlocksTheBlock :
    (flying (.tx 0xA0A4) []).inflight = some (.tx 0xA0A4) ∧ (flying (.tx 0xA0A4) []).transport = []
      ∧ (flying (.tx 0xA0A4) []).noCall ∧ (flying (.tx 0xA0A4) []).fault = .none
      ∧ ∀ rest, (flying (.tx 0xA0A4) []).schedule ≠ .reset :: rest :=
  ⟨rfl, rfl, noCall_of_port_none rfl, rfl, fun _ h => by cases h⟩

theorem witness_RequestsCompleteWithOneResponse :
    queued.schedule = [] ∧ queued.noCall ∧ queued.fault = .none ∧ queued.inflight = none ∧ queued.resp = some .ok
      ∧ queued.queue.length ≤ queued.transport.length
      ∧ ∀ (k : Nat) (a : Action), queued.queue[k]? = some a → queued.transport[k]? = some .error → ∃ w, a = .tx w := by
  refine ⟨rfl, noCall_of_port_none rfl, rfl, rfl, rfl, by decide, fun k a _ he => ?_⟩
  cases k with
  | zero => cases he
  | succ k => cases he

theorem witness_ResetInputEntersTheResetState :
    ({ queued with schedule := [.reset] } : State).schedule = [.reset]
      ∧ ({ queued with schedule := [.stale 0], abandoned := [⟨.tx 0xA000, 64⟩] } : State).schedule = [.stale 0] := ⟨rfl, rfl⟩

theorem witness_AbandonedCompletionsReachOnlyTheChip :
    (abandonedTx 0xA169 (.ok 0)).schedule = [.stale 0] ∧ (abandonedTx 0xA169 (.ok 0)).abandoned[0]? = some ⟨.tx 0xA169, 64⟩
      ∧ (abandonedTx 0xA169 (.ok 0)).transport = [.ok 0] := ⟨rfl, rfl, rfl⟩

/-- The premises of the invariants: the machine right after reset meets them, and a step from it answers a next state. -/
theorem witness_invariants :
    State.reset.Inv ∧ State.reset.params.Separated ∧ State.reset.ShadowConsistent ∧ State.reset.OnlyEmitted
      ∧ ∃ t, step { State.reset with port := some (.init none) } = .next t := by
  refine ⟨?_, by decide, fun h => (by cases h), fun w h => (by simp [State.reset, State.resetWith] at h), _, rfl⟩
  constructor <;> simp [State.reset, State.resetWith, State.idle, Memory.wf]

/-- A state in the middle of a request meets the invariant, so it holds of more than idle states. -/
theorem witness_invariant_of_busy_state : queued.Inv := by
  constructor <;> simp [queued, ready8, State.reset, State.resetWith, Memory.wf, Action.before]

theorem witness_ModeIsImmutableOnceReady :
    ∃ t, step (ready8 []) = .next t ∧ (ready8 []).life = .ready ∧ ∀ rest, (ready8 []).schedule ≠ .reset :: rest :=
  ⟨_, rfl, rfl, fun _ h => by cases h⟩

theorem witness_LifecycleTransitions :
    (∃ t, step { State.reset with port := some (.init none) } = .next t ∧ t.life = .ready)
      ∧ ∃ t, step { ready8 [] with schedule := [.reset] } = .next t ∧ t.life = .uninit :=
  ⟨⟨_, rfl, rfl⟩, _, rfl, rfl⟩

theorem witness_RowsChangeOnlyByTheWriteChannel :
    ∃ t, step { ready8 [] with port := some (.writeLed (.vInt 0) (.vInt 0) (.vBool true)) } = .next t
      ∧ t.shadow ≠ (ready8 []).shadow :=
  ⟨_, rfl, by decide⟩

theorem witness_RegistersChangeOnlyAtAcceptance :
    ∃ t, step { ready8 [] with port := some (.setPwm (.vInt 3)) } = .next t ∧ t.pwm ≠ (ready8 []).pwm :=
  ⟨_, rfl, by decide⟩

theorem witness_HandleChangesOnlyWhenOpenCompletes :
    ∃ t, step (flying (.openDev 0) [.ok 7]) = .next t ∧ t.handle ≠ (flying (.openDev 0) [.ok 7]).handle :=
  ⟨_, rfl, by decide⟩

/-- Two states before `INIT` that differ in every register without a value. -/
theorem witness_UnsetRegistersAreUnobservable :
    let t := { State.reset with port := some (.init none) }
    let s := { t with mode := ⟨true, true⟩, shadow := [(3, ttff)], blink := true, pwm := 9, handle := 5 }
    s.Inv ∧ t.Inv ∧ s.life = .uninit ∧ s.SameButUnset t
      ∧ (∀ o d0 d1 d2 d3 la0 la1, s.port ≠ some (.write o d0 d1 d2 d3 la0 la1)) ∧ ∃ s', step s = .next s' := by
  refine ⟨?_, ?_, rfl, rfl, by simp, _, rfl⟩
  all_goals constructor <;> simp [State.reset, State.resetWith, State.idle, Memory.wf, State.rowCount, Mode.rowCount, rows16]

theorem witness_ChipTakesAWordAsTheReferenceModelSays :
    (0x8120 : Word).extractLsb 15 13 ≠ (0b101 : BitVec 3)
      ∧ ((0xAFBF : Word).extractLsb 15 13 = (0b101 : BitVec 3) ∧ ((0xAFBF : Word).extractLsb 12 6).toNat + 1 < 64)
      ∧ (0xAFFC : Word).extractLsb 15 13 = (0b101 : BitVec 3) ∧ 64 ≤ ((0xAFFC : Word).extractLsb 12 6).toNat + 1 := by
  decide

theorem witness_OverlappingWritesKeepTheChipInAgreement :
    let s := { ready8 [] with chip := clearChip, params := { Params.reference with lastRowTarget := .none } }
    s.life = .ready ∧ s.shadow.wf ∧ s.params.lastRowTarget = .none ∧ s.resp = none ∧ s.Agrees
      ∧ ∃ t, exec (.writeLed (.vInt 63) (.vInt 0) (.vBool true)) s = .next t ∧ t.resp = some .ok := by
  refine ⟨rfl, by decide, rfl, rfl, ?_, _, rfl, rfl⟩
  show ∀ r < 64, clearChip.read r = Row.clear
  decide

/-- Under `unknown`, which the reference configuration has, and under `row0`. -/
theorem witness_ClearEstablishesAgreement :
    let s := ready8 [(1, ttff)]
    let u := { s with params := { Params.reference with lastRowTarget := .row0 } }
    (∃ t, s.life = .ready ∧ exec .clear s = .next t ∧ 63 < s.rowCount ∧ 63 ≠ 0)
      ∧ ∃ t, u.life = .ready ∧ exec .clear u = .next t ∧ 0 < u.rowCount ∧ u.params.lastRowTarget ≠ .unknown ∧ u.shadow.wf :=
  ⟨⟨_, rfl, rfl, by decide, by decide⟩, _, rfl, rfl, by decide, by decide, by decide⟩

theorem witness_LastRowWriteClearsChipRow0UnderRow0 :
    let s := { ready8 [(0, ttff)] with params := { Params.reference with lastRowTarget := .row0 } }
    ∃ t, s.life = .ready ∧ s.params.lastRowTarget = .row0
      ∧ exec (.writeAddr (.vInt (s.rowCount - 1 : Nat)) (.vBool true) (.vBool true) (.vBool true) (.vBool true)) s = .next t
      ∧ t.queue = [.tx 0xAFFC] :=
  ⟨_, rfl, rfl, rfl, by rfl⟩

end Sys2Proof.Tests
end

