-- ==== Sys2Proof/Proofs/Scope.lean ====
section
/-! The statements of `00_scope.md`: the OPEN parameters stay as they are, and words written out bit by bit decode. -/

namespace Sys2Proof.Machine

/-- Settles O54, by the mover of the step: each move's frame keeps the parameters, a reset included (R6, R102). -/
theorem parametersNeverChange : Obligations.ParametersNeverChange := by
  intro s t h
  cases step_cases h with
  | wait => rfl
  | run i _ _ t ht => exact (exec_frame ht).1
  | issue a rest => exact State.issue_params _ a rest
  | deliver r => exact State.deliver_params _ r
  | complete a c rest => exact (State.complete_frame _ a c).1
  | present i rest => rfl
  | stale n _ _ t ht =>
    obtain ⟨_, _, _, rfl⟩ := State.staleStep_frame ht
    rfl
  | reset => exact State.applyReset_params _

/-- Settles O10: each word is closed and the reference configuration fixes every value compared, so `decode` evaluates
(R48, R49, R53, R56). -/
theorem spelledOutWordsDecode : Obligations.SpelledOutWordsDecode :=
  ⟨rfl, rfl, rfl, rfl, rfl, rfl, rfl⟩

end Sys2Proof.Machine
end

