-- ==== Sys2Proof/Proofs/State.lean ====
section
/-! The statements of `10_state.md`: what the state is, what each step keeps of it, and how a request goes through. -/

namespace Sys2Proof.Machine

/-! ### The invariant -/

/-- The invariant speaks of the block's `LIFE`, `MODE`, `SHADOW`, `QUEUE`, `INFLIGHT`, `RESP` and `FAULT` alone. -/
theorem State.Inv.of_same_block {s t : State} (h : s.Inv)
    (ht : t = { t with
      life := s.life, mode := s.mode, shadow := s.shadow, queue := s.queue, inflight := s.inflight, resp := s.resp
      fault := s.fault }) : t.Inv := by
  rw [ht]
  exact ⟨h.shadow_wf, h.shadow_rows, h.uninit_idle, h.busy_owes, h.in_order, h.notReady_uninit, h.reinit_ready,
    h.openFailed_ready⟩

/-- The machine right after reset meets the invariant (R102, R103). -/
theorem State.resetWith_inv (p : Params) : (State.resetWith p).Inv := by
  constructor <;> simp [State.resetWith, State.idle, Memory.wf]

/-- A busy block is past its `INIT` (R91). -/
theorem State.Inv.ready_of_busy {s : State} (h : s.Inv) (hb : ¬ s.idle) : s.life = .ready :=
  s.life.cases.resolve_left fun hl => hb (h.uninit_idle hl)

/-- Words may follow one another in any order (R75). -/
theorem Action.pairwise_before_of_tx {as : List Action} (h : ∀ a ∈ as, ∃ w, a = .tx w) : as.Pairwise Action.before :=
  (List.pairwise_of_forall (R := fun _ _ => True) fun _ _ => trivial).imp_of_mem fun _ hb _ => .inl (h _ hb)

/-- The bring-up sequence, word by word (R75). -/
theorem bringUp_eq (p : Params) (m : Mode) :
    bringUp p m = [.tx p.cmdSysDis, .tx m.word, .tx p.cmdMaster, .tx p.cmdSysEn, .tx p.cmdLedOn,
      .tx (BitVec.ofNat 16 (p.pwmBase + 15 * p.pwmStep)), .tx p.cmdBlinkOff] := by
  have hpwm : encPwm p pwmDefault.toNat = _ := encPwm_level p pwmDefault
  unfold bringUp
  rw [encMode_word, hpwm]
  rfl

/-- The actions of an accepted `INIT` are in order (R75, R96). -/
theorem State.acceptInit_in_order (s : State) (m : Mode) : (s.acceptInit m).queue.Pairwise Action.before := by
  simp [bringUp_eq, Action.before]

/-- The state a request's acceptance leaves meets the invariant, if the shadow map keeps its form and the actions queued are
in order (R73). -/
theorem State.inv_of_accepted {t : State} (hl : t.life = .ready) (hi : t.inflight = none) (hf : t.fault = .none)
    (hr : t.resp ≠ none) (hw : t.shadow.wf) (hrows : ∀ e ∈ t.shadow, e.1 < t.rowCount)
    (hq : t.queue.Pairwise Action.before) : t.Inv where
  shadow_wf := hw
  shadow_rows := hrows
  uninit_idle h := by simp [hl] at h
  busy_owes _ := hr
  in_order := by simpa [hi] using hq
  notReady_uninit h := by simp [hf] at h
  reinit_ready h := by simp [hf] at h
  openFailed_ready h := by simp [hf] at h

/-- Every operation that the block may run keeps the invariant. -/
theorem exec_keeps_inv {i : Instr} {s t : State} (ht : exec i s = .next t)
    (hi : i.isEncoderCall = true ∨ s.idle ∧ s.fault = .none) (h : s.Inv) : t.Inv := by
  have hc := exec_cases ht
  rcases hi with hi | ⟨⟨hq, hin, hr⟩, hf⟩
  · obtain ⟨r, rfl⟩ := exec_call ht hi
    exact h.of_same_block rfl
  cases hc with
  | sampled r => exact h.of_same_block rfl
  | notReady _ _ hl =>
    rw [State.takeFault, if_pos hf]
    exact { h with notReady_uninit := fun _ => hl, reinit_ready := nofun, openFailed_ready := nofun }
  | reinit _ _ hl =>
    rw [State.takeFault, if_pos hf]
    exact { h with notReady_uninit := nofun, reinit_ready := fun _ => ⟨hl, hq, hin, hr⟩, openFailed_ready := nofun }
  | invalid => exact h.of_same_block rfl
  | init m k => exact State.inv_of_accepted rfl hin hf nofun (by simp [Memory.wf]) nofun (s.acceptInit_in_order k)
  | getBlink _ hl => exact State.inv_of_accepted hl hin hf nofun h.shadow_wf h.shadow_rows .nil
  | setBlink b _ hl => exact State.inv_of_accepted hl hin hf nofun h.shadow_wf h.shadow_rows (by simp)
  | getPwm _ hl => exact State.inv_of_accepted hl hin hf nofun h.shadow_wf h.shadow_rows .nil
  | setPwm n _ hl => exact State.inv_of_accepted hl hin hf nofun h.shadow_wf h.shadow_rows (by simp)
  | readMap _ hl => exact State.inv_of_accepted hl hin hf nofun h.shadow_wf h.shadow_rows .nil
  | row o row hl ho =>
    rw [s.acceptRow_eq ho]
    exact State.inv_of_accepted hl hin hf nofun (Memory.write_wf h.shadow_wf o row)
      (Memory.write_below h.shadow_rows ho row) (by simp)
  | clear _ hl =>
    obtain ⟨hw, hm⟩ := s.clearRows_shadow h.shadow_wf (List.range s.rowCount)
    have htx := s.clearRows_tx (List.range s.rowCount) fun _ => List.mem_range.1
    rw [s.clearRows_frame]
    exact State.inv_of_accepted hl hin hf nofun hw (fun e he => h.shadow_rows e (hm e he))
      (Action.pairwise_before_of_tx htx)

/-- ISSUE keeps the invariant: the actions in hand stay the same (R73). -/
theorem State.Inv.issue {s : State} (h : s.Inv) {a : Action} {rest : List Action} (hi : s.inflight = none)
    (hf : s.fault = .none) (hq : s.queue = a :: rest) : (s.issue a rest).Inv where
  shadow_wf := h.shadow_wf
  shadow_rows := h.shadow_rows
  uninit_idle hl := by simpa [hq] using (h.uninit_idle hl).1
  busy_owes _ := h.busy_owes (.inl (by simp [hq]))
  in_order := by simpa [hi, hq] using h.in_order
  notReady_uninit hn := by simp [hf] at hn
  reinit_ready hn := by simp [hf] at hn
  openFailed_ready hn := by simp [hf] at hn

/-- DELIVER keeps the invariant: no action is left (R73). -/
theorem State.Inv.deliver {s : State} (h : s.Inv) (r : Response) (hi : s.inflight = none) (hf : s.fault = .none)
    (hq : s.queue = []) : (s.deliver r).Inv where
  shadow_wf := h.shadow_wf
  shadow_rows := h.shadow_rows
  uninit_idle _ := ⟨hq, hi, rfl⟩
  busy_owes hb := by simp [hi, hq] at hb
  in_order := by simp [hi, hq]
  notReady_uninit hn := by simp [hf] at hn
  reinit_ready hn := by simp [hf] at hn
  openFailed_ready hn := by simp [hf] at hn

/-- COMPLETE keeps the invariant: `INFLIGHT` is cleared, and the only fault it can raise is `OPEN_FAILED` (R44, R94). -/
theorem State.Inv.complete {s : State} (h : s.Inv) {a : Action} (c : Completion) (hi : s.inflight = some a) :
    (s.complete a c).Inv := by
  have hl : s.life = .ready := h.ready_of_busy fun hidle => by simp [hidle.2.1] at hi
  have hr : s.resp ≠ none := h.busy_owes (.inr (by simp [hi]))
  obtain ⟨-, -, hin', hq', hr', hl', hm', hs', -, -, -, -, -, -, hf'⟩ := s.complete_frame a c
  have earlier {f : FaultCode} (hn : (s.complete a c).fault = f) (hne : f ≠ .openFailed) : s.fault = f :=
    (hf'.resolve_right (hn ▸ hne)).symm.trans hn
  exact {
    shadow_wf := hs' ▸ h.shadow_wf
    shadow_rows := by simpa [State.rowCount, hs', hm'] using h.shadow_rows
    uninit_idle := by simp [hl', hl]
    busy_owes := fun _ => hr' ▸ hr
    in_order := by simpa [hin', hq'] using h.in_order.sublist (List.sublist_append_right _ _)
    notReady_uninit := fun hn => hl'.trans (h.notReady_uninit (earlier hn nofun))
    reinit_ready := fun hn => by
      obtain ⟨-, -, hin, -⟩ := h.reinit_ready (earlier hn nofun)
      simp [hin] at hi
    openFailed_ready := fun _ => ⟨hl'.trans hl, hr' ▸ hr⟩ }

/-- Settles O46, by the mover of the step: each of the block's moves keeps the invariant, and the agents around it touch
nothing that the invariant speaks of. -/
theorem everyStepKeepsTheInvariant : Obligations.EveryStepKeepsTheInvariant := by
  intro s t h ht
  have hp : s.popped.Inv := h.of_same_block rfl
  cases step_cases ht with
  | wait => exact hp
  | run i _ hi t ht => exact exec_keeps_inv ht hi (hp.of_same_block rfl)
  | issue a rest hf hi hq => exact hp.issue hi hf hq
  | deliver r hf hi hq => exact hp.deliver r hi hf hq
  | complete a c rest hi => exact State.Inv.complete (hp.of_same_block rfl) c hi
  | present i rest => exact hp.of_same_block rfl
  | stale n _ _ t ht =>
    obtain ⟨_, _, _, rfl⟩ := State.staleStep_frame ht
    exact hp.of_same_block rfl
  | reset => exact (State.resetWith_inv s.params).of_same_block rfl

/-! ### What has been built: the history of actions (R27, R40) -/

/-- A word's two bytes give the word back (R37). -/
theorem wordOfBytes_hiByte_loByte (w : Word) : wordOfBytes w.hiByte w.loByte = w := by
  apply BitVec.eq_of_toNat_eq
  have := w.isLt
  rw [wordOfBytes, BitVec.toNat_append, ← Nat.shiftLeft_add_eq_or_of_lt (Word.loByte w).isLt]
  simp [Word.hiByte, Word.loByte, Nat.shiftLeft_eq, Nat.shiftRight_eq_div_pow]
  omega

/-- The call of an action carries that action out (R44). -/
@[simp] theorem Action.action_call (a : Action) (h : Handle) : (a.call h).action = a := by
  cases a with
  | openDev dev => rfl
  | setClock hz => rfl
  | tx w => exact congrArg Action.tx (wordOfBytes_hiByte_loByte w)

@[simp] theorem Event.action_call (c : TransportCall) : (Event.call c).action = some c.action := rfl
@[simp] theorem Event.action_response (r : Response) : (Event.response r).action = none := rfl
@[simp] theorem Event.action_report (w : Word) : (Event.report w).action = none := rfl

/-- ISSUE moves an action from the queue to the log. -/
theorem State.history_issue (s : State) {a : Action} {rest : List Action} (hq : s.queue = a :: rest) :
    (s.issue a rest).history = s.history := by
  simp [State.history, hq]

@[simp] theorem State.history_deliver (s : State) (r : Response) : (s.deliver r).history = s.history := by
  simp [State.history]

@[simp] theorem State.history_respondInvalid (s : State) : s.respondInvalid.history = s.history := by
  simp [State.history]

@[simp] theorem State.history_takeFault (s : State) (c : FaultCode) : (s.takeFault c).history = s.history := by
  simp [State.history]

@[simp] theorem State.history_complete (s : State) (a : Action) (c : Completion) :
    (s.complete a c).history = s.history := by
  obtain ⟨-, -, -, hq, -, -, -, -, -, -, -, -, hlog, -⟩ := s.complete_frame a c
  rcases hlog with hlog | ⟨w, -, hlog⟩ <;> simp [State.history, hq, hlog]

/-! ### Which actions set a row (R27) -/

theorem lastBuilt_append (as bs : List Action) (r : Nat) :
    lastBuilt (as ++ bs) r = bs.foldl (builtStep r) (lastBuilt as r) := List.foldl_append

/-- A command word sets no row. -/
theorem builtStep_command {w : Word} (h : ¬ isWriteWord w) (r : Nat) (row : Row) : builtStep r row (.tx w) = row :=
  if_neg fun hw => h hw.1

/-- A write word sets the row it addresses. -/
theorem builtStep_writeLayout {o : Nat} (ho : o < 128) (d0 d1 d2 d3 l0 l1 : Bool) (r : Nat) (row : Row) :
    builtStep r row (.tx (writeLayout (BitVec.ofNat 7 o) d0 d1 d2 d3 l0 l1))
      = if r = o then ⟨d0, d1, d2, d3⟩ else row := by
  have hw : isWriteWord (writeLayout (BitVec.ofNat 7 o) d0 d1 d2 d3 l0 l1) := (writeLayout_fields _ _ _ _ _ _ _).1
  simp only [builtStep, addrOf_writeLayout ho, rowOf_writeLayout, hw, true_and, eq_comm]

/-- The fixed command words are no write words, the word sets being apart (R56). -/
theorem fixedWord_not_write {p : Params} (h : p.Separated) {w : Word} (hw : w ∈ p.fixedWords) :
    ¬ isWriteWord w := by
  simpa using List.all_eq_true.1 h.2.1 w hw

/-- The PWM words are no write words, the word sets being apart (R56). -/
theorem pwmWord_not_write {p : Params} (h : p.Separated) {l : Nat} (hl : l < 16) :
    ¬ isWriteWord (BitVec.ofNat 16 (p.pwmBase + l * p.pwmStep)) := (h.2.2 l hl).2

/-- The mode words are no write words (R13, R49). -/
theorem Mode.word_not_write (m : Mode) : ¬ isWriteWord m.word := by
  obtain ⟨c, p⟩ := m
  cases c <;> cases p <;> decide

/-- The bring-up sequence sets no row. -/
theorem bringUp_built {p : Params} (h : p.Separated) (m : Mode) (r : Nat) (row : Row) :
    (bringUp p m).foldl (builtStep r) row = row := by
  have hfixed : ∀ w ∈ p.fixedWords, ∀ row, builtStep r row (.tx w) = row := fun w hw =>
    builtStep_command (fixedWord_not_write h hw) r
  have hmode := builtStep_command m.word_not_write r
  have hpwm := builtStep_command (pwmWord_not_write h (l := 15) (by decide)) r
  simp [bringUp_eq, hfixed, hmode, hpwm]

/-- A read after a row write: the row written, or what was there (R32). -/
theorem State.memRead_memWrite (s : State) (h : s.shadow.wf) (o : Nat) (row : Row) (r : Nat) :
    (s.memWrite o row).memRead r = if r = o then row else s.memRead r := by
  by_cases hr : r = o
  · rw [if_pos hr, hr, s.memRead_memWrite_same h]
  · rw [if_neg hr, s.memRead_memWrite_other row hr]

/-- The row-write path to an existing row builds the word that sets that row. -/
theorem State.writeRow_built (s : State) {o : Nat} (ho : o < s.rowCount) (row : Row) (r : Nat) (old : Row) :
    (s.writeRow o row).2.foldl (builtStep r) old = if r = o then row else old := by
  have hbound : o < 128 := by have := s.mode.rowCount_le; unfold State.rowCount at ho; omega
  rw [s.writeRow_eq, s.encWrite_lookahead ho]
  split <;> exact builtStep_writeLayout hbound _ _ _ _ _ _ r old

/-- The clearing of existing rows builds the words that clear them. -/
theorem State.clearRows_built (s : State) (l : List Nat) (h : ∀ i ∈ l, i < s.rowCount) (r : Nat) (old : Row) :
    (s.clearRows l).2.foldl (builtStep r) old = if r ∈ l then .clear else old := by
  induction l generalizing s old with
  | nil => rfl
  | cons i l ih =>
    have hrest : ∀ j ∈ l, j < (s.writeRow i .clear).1.rowCount := fun j hj => h j (by simp [hj])
    rw [State.clearRows, List.foldl_append, s.writeRow_built (h i (by simp)), ih _ hrest]
    by_cases hi : r = i <;> simp [hi]

/-! ### Shadow consistency (R27) -/

/-- Shadow consistency speaks of `LIFE`, `MODE`, `SHADOW` and the history alone. -/
theorem State.ShadowConsistent.of_same {s t : State} (h : s.ShadowConsistent) (hl : t.life = s.life)
    (hm : t.mode = s.mode) (hs : t.shadow = s.shadow) (hh : t.history = s.history) : t.ShadowConsistent := by
  unfold State.ShadowConsistent State.rowCount State.memRead at *
  rwa [hl, hm, hs, hh]

/-- A request accepted after `INIT` keeps shadow consistency, if its actions set the rows as its writes do. -/
theorem State.ShadowConsistent.accepted {s t : State} (h : s.ShadowConsistent) (hl : s.life = .ready)
    (hq : s.queue = []) (hlog : t.log = s.log) (hm : t.mode = s.mode)
    (hr : ∀ r < s.rowCount, t.memRead r = t.queue.foldl (builtStep r) (s.memRead r)) : t.ShadowConsistent := by
  intro _ r hlt
  have hold : r < s.rowCount := by rwa [State.rowCount, hm] at hlt
  have hhist : t.history = s.history ++ t.queue := by simp [State.history, hlog, hq]
  rw [hr r hold, h hl r hold, hhist, lastBuilt_append]

/-- Every operation that the block may run keeps shadow consistency. -/
theorem exec_keeps_shadowConsistent {i : Instr} {s t : State} (ht : exec i s = .next t)
    (hi : i.isEncoderCall = true ∨ s.idle ∧ s.fault = .none) (hw : s.shadow.wf) (hp : s.params.Separated)
    (h : s.ShadowConsistent) : t.ShadowConsistent := by
  have hc := exec_cases ht
  rcases hi with hi | ⟨⟨hq, -, -⟩, -⟩
  · obtain ⟨r, rfl⟩ := exec_call ht hi
    exact h.of_same rfl rfl rfl rfl
  cases hc with
  | sampled r => exact h.of_same rfl rfl rfl rfl
  | notReady => exact h.of_same (by simp) (by simp) (by simp) (by simp)
  | reinit => exact h.of_same (by simp) (by simp) (by simp) (by simp)
  | invalid => exact h.of_same rfl rfl rfl (by simp)
  | init m k =>
    intro _ r _
    rw [State.history, lastBuilt_append]
    exact (bringUp_built hp k r .clear).symm
  | getBlink _ hl => exact h.accepted hl hq rfl rfl fun _ _ => rfl
  | setBlink b _ hl =>
    have hword : ¬ isWriteWord (if b then s.params.cmdBlinkOn else s.params.cmdBlinkOff) :=
      fixedWord_not_write hp (by cases b <;> simp)
    exact h.accepted hl hq rfl rfl fun r _ => (builtStep_command hword r _).symm
  | getPwm _ hl => exact h.accepted hl hq rfl rfl fun _ _ => rfl
  | setPwm n _ hl => exact h.accepted hl hq rfl rfl fun r _ => (builtStep_command (pwmWord_not_write hp n.isLt) r _).symm
  | readMap _ hl => exact h.accepted hl hq rfl rfl fun _ _ => rfl
  | row o row hl ho =>
    refine h.accepted hl hq rfl rfl fun r _ => ?_
    exact (s.memRead_memWrite hw o row r).trans (s.writeRow_built ho row r _).symm
  | clear _ hl =>
    have hrows : ∀ i ∈ List.range s.rowCount, i < s.rowCount := fun _ => List.mem_range.1
    have hlog := congrArg State.log (s.clearRows_frame (List.range s.rowCount))
    have hmode := congrArg State.mode (s.clearRows_frame (List.range s.rowCount))
    refine h.accepted hl hq hlog hmode fun r _ => ?_
    exact (s.clearRows_read hw _ r).trans (s.clearRows_built _ hrows r _).symm

/-- Settles O47, by the mover of the step: only an accepted request builds words or writes rows. -/
theorem everyStepKeepsShadowConsistency : Obligations.EveryStepKeepsShadowConsistency := by
  intro s t hinv hp h ht
  cases step_cases ht with
  | wait => exact h.of_same rfl rfl rfl rfl
  | run i _ hi t ht => exact exec_keeps_shadowConsistent ht hi hinv.shadow_wf hp (h.of_same rfl rfl rfl rfl)
  | issue a rest _ _ hq => exact h.of_same rfl rfl rfl (s.popped.history_issue hq)
  | deliver r => exact h.of_same rfl rfl rfl (s.popped.history_deliver r)
  | complete a c rest =>
    obtain ⟨-, -, -, -, -, hl, hm, hs, -⟩ := State.complete_frame { s.popped with transport := rest } a c
    exact h.of_same hl hm hs (State.history_complete _ a c)
  | present i rest => exact h.of_same rfl rfl rfl rfl
  | stale n _ _ t ht =>
    obtain ⟨_, _, _, rfl⟩ := State.staleStep_frame ht
    exact h.of_same rfl rfl rfl rfl
  | reset => exact fun hl => by simp at hl

/-! ### What changes the registers (R12, R18, R23, R28, R29) -/

/-- Settles O37, by the mover of the step: only ACCEPT and a reset take a request off the port (R23). -/
theorem requestsAreHeldUntilTheBlockIsIdle : Obligations.RequestsAreHeldUntilTheBlockIsIdle := by
  intro s t i hp hreq ht
  cases step_cases ht with
  | wait => exact .inr (.inl hp)
  | run j hj hi t ht =>
    obtain rfl : i = j := Option.some.inj (hp.symm.trans hj)
    obtain ⟨hidle, hf⟩ := hi.resolve_left (by simp [hreq])
    exact .inl ⟨hidle, hf, ht⟩
  | issue a rest => exact .inr (.inl hp)
  | deliver r => exact .inr (.inl hp)
  | complete a c rest =>
    obtain ⟨-, hport, -⟩ := State.complete_frame { s.popped with transport := rest } a c
    exact .inr (.inl (hport.trans hp))
  | present j rest hn => simp [hp] at hn
  | stale n _ _ t ht =>
    obtain ⟨_, _, _, rfl⟩ := State.staleStep_frame ht
    exact .inr (.inl hp)
  | reset m hm => exact .inr (.inr ⟨m, hm⟩)

/-- What a step does to `LIFE`, `MODE`, `SHADOW`, `BLINK` and `PWM`: nothing, or it is a request's ACCEPT step, or a reset
(R42). -/
theorem step_registers {s t : State} (ht : step s = .next t) :
    (t.life = s.life ∧ t.mode = s.mode ∧ t.shadow = s.shadow ∧ t.blink = s.blink ∧ t.pwm = s.pwm)
      ∨ (∃ i, s.port = some i ∧ i.isEncoderCall = false ∧ s.idle ∧ s.fault = .none
          ∧ exec i { s.popped with port := none } = .next t)
      ∨ (∃ rest, s.schedule = .reset :: rest) ∧ t = s.popped.applyReset := by
  cases step_cases ht with
  | wait => exact .inl ⟨rfl, rfl, rfl, rfl, rfl⟩
  | run i hp hi t ht =>
    cases hcall : i.isEncoderCall with
    | true =>
      obtain ⟨r, rfl⟩ := exec_call ht hcall
      exact .inl ⟨rfl, rfl, rfl, rfl, rfl⟩
    | false =>
      obtain ⟨hidle, hf⟩ := hi.resolve_left (by simp [hcall])
      exact .inr (.inl ⟨i, hp, hcall, hidle, hf, ht⟩)
  | issue a rest => exact .inl ⟨rfl, rfl, rfl, rfl, rfl⟩
  | deliver r => exact .inl ⟨rfl, rfl, rfl, rfl, rfl⟩
  | complete a c rest =>
    obtain ⟨-, -, -, -, -, hl, hm, hs, hb, hw, -⟩ := State.complete_frame { s.popped with transport := rest } a c
    exact .inl ⟨hl, hm, hs, hb, hw⟩
  | present i rest => exact .inl ⟨rfl, rfl, rfl, rfl, rfl⟩
  | stale n _ _ t ht =>
    obtain ⟨_, _, _, rfl⟩ := State.staleStep_frame ht
    exact .inl ⟨rfl, rfl, rfl, rfl, rfl⟩
  | reset m hm => exact .inr (.inr ⟨⟨m, hm⟩, rfl⟩)

/-- What an operation does to `LIFE` and `MODE`: nothing, unless it is an `INIT` that is accepted (R74, R80). -/
theorem exec_life_mode {i : Instr} {s t : State} (ht : exec i s = .next t) :
    (t.life = s.life ∧ t.mode = s.mode)
      ∨ ∃ m k, i = .init m ∧ s.life = .uninit ∧ modeOperand m = some k ∧ t.life = .ready ∧ t.mode = k := by
  cases exec_cases ht with
  | init m k hi hl hm => exact .inr ⟨m, k, hi, hl, hm, rfl, rfl⟩
  | clear =>
    rw [s.clearRows_frame]
    exact .inl ⟨rfl, rfl⟩
  | notReady => exact .inl ⟨s.takeFault_life _, s.takeFault_mode _⟩
  | reinit => exact .inl ⟨s.takeFault_life _, s.takeFault_mode _⟩
  | _ => exact .inl ⟨rfl, rfl⟩

/-- What an operation after `INIT` does to the shadow map: nothing, unless it is one of the three row writers (R28). -/
theorem exec_ready_shadow {i : Instr} {s t : State} (ht : exec i s = .next t) (hl : s.life = .ready) :
    t.shadow = s.shadow ∨ (∃ o d0 d1 d2 d3, i = .writeAddr o d0 d1 d2 d3) ∨ (∃ o k v, i = .writeLed o k v)
      ∨ i = .clear := by
  cases exec_cases ht with
  | row o row _ _ hi =>
    rcases hi with rfl | ⟨k, v, -, rfl, -⟩
    · exact .inr (.inl ⟨_, _, _, _, _, rfl⟩)
    · exact .inr (.inr (.inl ⟨_, _, _, rfl⟩))
  | clear hi => exact .inr (.inr (.inr hi))
  | init m k _ hn => simp [hl] at hn
  | notReady => exact .inl (s.takeFault_shadow _)
  | reinit => exact .inl (s.takeFault_shadow _)
  | _ => exact .inl rfl

/-- Settles O49: an accepted request writes `MODE` only if it is an `INIT` before `INIT` (R29). -/
theorem modeIsImmutableOnceReady : Obligations.ModeIsImmutableOnceReady := by
  intro s t hl ht hreset
  have hmode : t.mode = s.mode := by
    rcases step_registers ht with ⟨-, hm, -⟩ | ⟨i, -, -, -, -, hexec⟩ | ⟨⟨rest, hr⟩, -⟩
    · exact hm
    · rcases exec_life_mode hexec with ⟨-, hm⟩ | ⟨m, k, -, hn, -⟩
      · exact hm
      · exact absurd (hl.symm.trans hn) nofun
    · exact absurd hr (hreset rest)
  exact ⟨hmode, congrArg Mode.rowCount hmode⟩

/-- Settles O50: of the steps that may write `LIFE`, an accepted `INIT` makes it `READY` and a reset `UNINIT` (R12, R80). -/
theorem lifecycleTransitions : Obligations.LifecycleTransitions := by
  intro s t ht
  have unchanged {P Q : Prop} (hlife : t.life = s.life) :
      (s.life = .uninit → t.life = .ready → P) ∧ (s.life = .ready → t.life = .uninit → Q) := by
    rw [hlife]
    exact ⟨fun hs hr => absurd (hs.symm.trans hr) nofun, fun hs hu => absurd (hs.symm.trans hu) nofun⟩
  rcases step_registers ht with ⟨hlife, -⟩ | ⟨i, hp, -, hidle, hf, hexec⟩ | ⟨hr, rfl⟩
  · exact unchanged hlife
  · rcases exec_life_mode hexec with ⟨hlife, -⟩ | ⟨m, k, rfl, -, hm, hready, hmode⟩
    · exact unchanged hlife
    · exact ⟨fun _ _ => ⟨hidle, hf, m, k, hp, hm, hmode⟩, fun _ hu => absurd (hready.symm.trans hu) nofun⟩
  · exact ⟨fun _ hready => absurd hready nofun, fun _ _ => hr⟩

/-- Settles O51: of the steps that may write the shadow map, an accepted request is a row writer (R28). -/
theorem rowsChangeOnlyByTheWriteChannel : Obligations.RowsChangeOnlyByTheWriteChannel := by
  intro s t hl ht hne
  rcases step_registers ht with ⟨-, -, hs, -⟩ | ⟨i, hp, -, hidle, hf, hexec⟩ | ⟨hr, -⟩
  · exact absurd hs hne
  · refine .inr ⟨hidle, hf, ?_⟩
    rcases exec_ready_shadow hexec hl with hs | ⟨o, d0, d1, d2, d3, rfl⟩ | ⟨o, k, v, rfl⟩ | rfl
    · exact absurd hs hne
    · exact .inl ⟨o, d0, d1, d2, d3, hp⟩
    · exact .inr (.inl ⟨o, k, v, hp⟩)
    · exact .inr (.inr hp)
  · exact .inl hr

/-- A completion changes `HANDLE` only if it is an `Open`'s, ok, and the block has not faulted (R44, R93). -/
theorem State.complete_handle {s : State} {a : Action} {c : Completion} (h : (s.complete a c).handle ≠ s.handle) :
    ∃ dev, a = .openDev dev ∧ c = .ok (s.complete a c).handle ∧ s.fault = .none := by
  cases a with
  | openDev dev =>
    cases c with
    | ok k =>
      by_cases hf : s.fault = .none
      · exact ⟨dev, rfl, by simp [State.complete, hf], hf⟩
      · exact absurd (by simp [State.complete, hf]) h
    | error => exact absurd (State.takeFault_handle _ _) h
  | setClock hz => cases c <;> exact absurd (by simp [State.complete]) h
  | tx w => cases c <;> exact absurd rfl h

/-- Settles O53, by the mover of the step: among a step's moves COMPLETE and a reset alone write `HANDLE` (R18, R44). -/
theorem handleChangesOnlyWhenOpenCompletes : Obligations.HandleChangesOnlyWhenOpenCompletes := by
  intro s t ht hne
  cases step_cases ht with
  | wait => exact absurd rfl hne
  | run i _ _ t ht =>
    obtain ⟨-, -, -, -, -, -, -, hh⟩ := exec_frame ht
    exact absurd hh hne
  | issue a rest => exact absurd rfl hne
  | deliver r => exact absurd rfl hne
  | complete a c rest hi htr =>
    obtain ⟨dev, rfl, hc, hf⟩ := State.complete_handle hne
    obtain ⟨-, -, hin, -⟩ := State.complete_frame { s.popped with transport := rest } (.openDev dev) c
    exact .inr ⟨dev, rest, hi, hc ▸ htr, hf, hin⟩
  | present i rest => exact absurd rfl hne
  | stale n _ _ t ht =>
    obtain ⟨_, _, _, rfl⟩ := State.staleStep_frame ht
    exact absurd rfl hne
  | reset m hm => exact .inl ⟨m, hm⟩

/-! ### A request in hand goes through (R24, R40, R73, R90) -/

/-- With nothing scheduled, the block moves first. -/
theorem step_of_blockMove {s : State} {o : Host.Outcome State Fault Refusal} (hs : s.schedule = [])
    (h : blockMove s = some o) : step s = o := by
  rw [step_unscheduled hs, defaultMove, h]

/-- ISSUE, as a step. -/
theorem step_issue {s : State} {a : Action} {rest : List Action} (hs : s.schedule = []) (hp : s.noCall)
    (hf : s.fault = .none) (hi : s.inflight = none) (hq : s.queue = a :: rest) : step s = .next (s.issue a rest) := by
  have hb : s.blockStep = some (.issue a rest) := by
    rw [State.blockStep_noCall hp, State.cycleStep, if_neg (by simp [hf, hi]), hq]
  exact step_of_blockMove hs (by rw [blockMove, hb])

/-- DELIVER, as a step. -/
theorem step_deliver {s : State} {r : Response} (hs : s.schedule = []) (hp : s.noCall) (hf : s.fault = .none)
    (hi : s.inflight = none) (hq : s.queue = []) (hr : s.resp = some r) : step s = .next (s.deliver r) := by
  have hb : s.blockStep = some (.deliver r) := by
    rw [State.blockStep_noCall hp, State.cycleStep, if_neg (by simp [hf, hi]), hq, hr]
  exact step_of_blockMove hs (by rw [blockMove, hb])

/-- COMPLETE, as a step: while an action is in flight the block takes none (R41). -/
theorem step_complete {s : State} {a : Action} {c : Completion} {rest : List Completion} (hs : s.schedule = [])
    (hp : s.noCall) (hi : s.inflight = some a) (ht : s.transport = c :: rest) :
    step s = .next ({ s with transport := rest }.complete a c) := by
  have hb : s.blockStep = none := by rw [State.blockStep_noCall hp, State.cycleStep, if_pos (.inr (by simp [hi]))]
  simp [step_unscheduled hs, defaultMove, blockMove, hb, State.transportStep, hi, ht]

/-- A completion that does not fail an `Open` or a `SetClock` raises no fault (R44, R90). -/
theorem State.complete_fault (s : State) {a : Action} {c : Completion} (h : c = .error → ∃ w, a = .tx w) :
    (s.complete a c).fault = s.fault := by
  cases c with
  | ok k => cases a <;> simp [State.complete, apply_ite State.fault]
  | error =>
    obtain ⟨w, rfl⟩ := h rfl
    rfl

/-- A run's first step. -/
theorem run_succ_of_step {s t : State} (h : step s = .next t) (k : Nat) : core.run (k + 1) s = core.run k t := by
  simp [Host.Core.run, core, h]

@[simp] theorem State.complete_transport (s : State) (a : Action) (c : Completion) :
    (s.complete a c).transport = s.transport := by
  cases a <;> cases c <;> by_cases hf : s.fault = .none <;> simp [State.complete, hf]

/-- The block has a request in hand and nothing in flight: `q` is still to be issued, `r` is owed, the transport's next
completions are `cs`, and no turn and no bench's call comes between. -/
structure State.Serving (s : State) (q : List Action) (r : Response) (cs : List Completion) : Prop where
  unscheduled : s.schedule = []
  noCall : s.noCall
  unfaulted : s.fault = .none
  landed : s.inflight = none
  queue : s.queue = q
  resp : s.resp = some r
  transport : s.transport = cs

/-- ISSUE and COMPLETE, two steps, take one action off a request in hand (R44, R73, R90). -/
theorem State.Serving.issue_complete {s : State} {a : Action} {q : List Action} {r : Response} {c : Completion}
    {cs : List Completion} (h : s.Serving (a :: q) r (c :: cs)) (hc : c = .error → ∃ w, a = .tx w) :
    ∃ t es, (∀ k, core.run (k + 2) s = core.run k t) ∧ t.Serving q r cs ∧ t.log = s.log ++ es
      ∧ es.filterMap Event.action = [a] ∧ ∀ p, .response p ∉ es := by
  have hissue := step_issue h.unscheduled h.noCall h.unfaulted h.landed h.queue
  have hcomplete := step_complete (s := s.issue a q) h.unscheduled h.noCall rfl h.transport
  have hrun (k : Nat) := (run_succ_of_step hissue (k + 1)).trans (run_succ_of_step hcomplete k)
  obtain ⟨-, hport, hin, hq, hr, -, -, -, -, -, -, hs, hlog, -⟩ :=
    State.complete_frame { s.issue a q with transport := cs } a c
  have hserving : ({ s.issue a q with transport := cs }.complete a c).Serving q r cs := {
    unscheduled := hs.trans h.unscheduled
    noCall := fun i hi => h.noCall i (hport.symm.trans hi)
    unfaulted := (State.complete_fault _ hc).trans h.unfaulted
    landed := hin
    queue := hq
    resp := hr.trans h.resp
    transport := State.complete_transport _ a c }
  rcases hlog with hlog | ⟨w, -, hlog⟩
  · exact ⟨_, [.call (a.call s.handle)], hrun, hserving, hlog, by simp, by simp⟩
  · exact ⟨_, [.call (a.call s.handle), .report w], hrun, hserving, hlog.trans (List.append_assoc _ _ _), by simp,
      by simp⟩

/-- A request in hand goes through, if the transport completes its actions and fails no `Open` or `SetClock` (R24). -/
theorem State.Serving.completes {s : State} {q : List Action} {r : Response} {cs : List Completion}
    (h : s.Serving q r cs) (hlen : q.length ≤ cs.length)
    (hok : ∀ (k : Nat) (a : Action), q[k]? = some a → cs[k]? = some .error → ∃ w, a = .tx w) :
    ∃ t es, core.run (2 * q.length + 1) s = .next t ∧ t.idle ∧ t.fault = .none
      ∧ t.log = s.log ++ es ++ [.response r] ∧ es.filterMap Event.action = q ∧ ∀ p, .response p ∉ es := by
  induction q generalizing s cs with
  | nil =>
    have hdeliver := step_deliver h.unscheduled h.noCall h.unfaulted h.landed h.queue h.resp
    exact ⟨_, [], run_succ_of_step hdeliver 0, ⟨h.queue, h.landed, rfl⟩, h.unfaulted, by simp, rfl, by simp⟩
  | cons a q ih =>
    cases cs with
    | nil => simp at hlen
    | cons c cs =>
      obtain ⟨u, es, hrun, hu, hlog, hes, hquiet⟩ := h.issue_complete fun hc => hok 0 a rfl (congrArg some hc)
      obtain ⟨t, es', hrun', hidle, hf, hlog', hes', hquiet'⟩ :=
        ih hu (Nat.le_of_succ_le_succ hlen) fun k => hok (k + 1)
      refine ⟨t, es ++ es', (hrun _).trans hrun', hidle, hf, by simp [hlog', hlog], by simp [hes, hes'], fun p => ?_⟩
      simp [hquiet p, hquiet' p]

/-- Settles O41: the hypotheses say that a request is in hand; it goes through by induction on the actions still to be
issued. -/
theorem requestsCompleteWithOneResponse : Obligations.RequestsCompleteWithOneResponse := fun _ _ hs hp hf hi hr hlen hok =>
  State.Serving.completes ⟨hs, hp, hf, hi, rfl, hr, rfl⟩ hlen hok

/-! ### The step that runs an operation (R21, R23), and the mode (R13, R14) -/

/-- The block's step is to run the operation at the port, if that is a bench's call or the block may accept (R23). -/
theorem State.blockStep_of_port {s : State} {i : Instr} (hp : s.port = some i)
    (hi : i.isEncoderCall = true ∨ s.idle ∧ s.fault = .none) : s.blockStep = some (.run i) := by
  rw [State.blockStep, hp]
  cases hcall : i.isEncoderCall with
  | true => simp [hcall]
  | false =>
    obtain ⟨⟨hq, hin, hr⟩, hf⟩ := hi.resolve_left (by simp [hcall])
    simp [hcall, State.cycleStep, hf, hin, hq, hr, hp]

/-- Settles O13: the block's step is to run the operation, and the block moves first. -/
theorem stepRunsThePresentedOperation : Obligations.StepRunsThePresentedOperation := fun _ _ hs hp hi =>
  step_of_blockMove hs (by rw [blockMove, State.blockStep_of_port hp hi])

/-- `classify` answers encoder calls alone: a request has no word (R56, R58). -/
theorem decode_isEncoderCall {p : Params} {w : Word} {i : Instr} (h : decode p w = .ok i) : i.isEncoderCall = true := by
  unfold decode at h
  repeat' split at h
  all_goals cases h <;> rfl

/-- A transmission decodes to an encoder call (R37, R56). -/
theorem decodeBytes_isEncoderCall {p : Params} {bs rest : List Byte} {i : Instr} (h : decodeBytes p bs = .ok (i, rest)) :
    i.isEncoderCall = true := by
  unfold decodeBytes at h
  split at h
  · split at h
    · rename_i hdec
      cases h
      exact decode_isEncoderCall hdec
    · cases h
  · cases h

/-- Table bits decode to an encoder call. -/
theorem decodeTableWord_isEncoderCall {n w : Nat} {i : Instr} (h : decodeTableWord n w = some i) :
    i.isEncoderCall = true := by
  simp only [decodeTableWord] at h
  split at h
  · cases h
  · split at h
    · rename_i hdec
      cases h
      exact decodeBytes_isEncoderCall hdec
    · cases h

/-- Settles O14: what the decoder reads is an encoder call, which waits for nothing. -/
theorem stepRunsTheDecodedWord : Obligations.StepRunsTheDecodedWord := by
  intro s n w i h
  have hpresent : s.withFetchWord n w = s.present i := by rw [State.withFetchWord, h]
  rw [hpresent]
  exact stepRunsThePresentedOperation (s.present i) i rfl rfl (.inl (decodeTableWord_isEncoderCall h))

/-- Settles O12, by the four modes, and by the four integers that `modeOf` takes (R13, R14). -/
theorem modeWordsAndRowCounts : Obligations.ModeWordsAndRowCounts := by
  constructor
  · rintro ⟨c, p⟩
    refine ⟨?_, modeOf_word _, ?_⟩
    all_goals cases c <;> cases p <;> decide
  · intro n m h
    unfold modeOf at h
    split_ifs at h with h1 h2 h3 h4
    · cases h; exact h1.symm
    · cases h; exact h2.symm
    · cases h; exact h3.symm
    · cases h; exact h4.symm

end Sys2Proof.Machine
end

/-! The statements of `20_memory.md`: the byte order of a transmission, the blocking transport and its completions, when the
registers are written, and what a word does to the reference chip. -/

namespace Sys2Proof.Machine

/-! ### The bytes of a transmission (R37) -/

/-- The byte transmitted first is the word's quotient by 256 (R37). -/
theorem hiByte_toNat (w : Word) : w.hiByte.toNat = w.toNat / 256 := by
  have := w.isLt
  rw [Word.hiByte, BitVec.extractLsb_toNat, Nat.shiftRight_eq_div_pow]
  omega

/-- The byte transmitted second is the word's remainder by 256 (R37). -/
theorem loByte_toNat (w : Word) : w.loByte.toNat = w.toNat % 256 := by
  rw [Word.loByte, BitVec.extractLsb_toNat, Nat.shiftRight_zero]

/-- Settles O11: the call of a word takes its two bytes, which give the word back. -/
theorem wordsTravelHighByteFirst : Obligations.WordsTravelHighByteFirst := fun w _ =>
  ⟨w.hiByte, w.loByte, rfl, hiByte_toNat w, loByte_toNat w, wordOfBytes_hiByte_loByte w⟩

/-! ### The blocking transport (R41, R44, R113) -/

/-- Settles O36, by the mover of the step: ACCEPT, ISSUE and DELIVER all wait for `INFLIGHT = none`, and a completion can
only report. -/
theorem noActionIsIssuedWhileOneIsInFlight : Obligations.NoActionIsIssuedWhileOneIsInFlight := by
  intro s t a ha ht
  cases step_cases ht with
  | wait => exact ⟨.inl rfl, .inl ha, .inl ⟨rfl, rfl, fun _ hp _ => hp⟩⟩
  | run i hp hi t ht =>
    have hcall : i.isEncoderCall = true := hi.resolve_right fun ⟨⟨_, hidle, _⟩, _⟩ => by simp [ha] at hidle
    obtain ⟨r, rfl⟩ := exec_call ht hcall
    refine ⟨.inl rfl, .inl ha, .inl ⟨rfl, rfl, fun j hj hreq => ?_⟩⟩
    obtain rfl : i = j := Option.some.inj (hp.symm.trans hj)
    simp [hcall] at hreq
  | issue b rest _ hi => simp [ha] at hi
  | deliver r _ hi => simp [ha] at hi
  | complete b c rest hb =>
    obtain rfl : a = b := Option.some.inj (ha.symm.trans hb)
    obtain ⟨-, hport, hin, hq, hr, -, -, -, -, -, -, -, hlog, -⟩ :=
      State.complete_frame { s.popped with transport := rest } a c
    exact ⟨hlog, .inr hin, .inl ⟨hq, hr, fun _ hp _ => hport.trans hp⟩⟩
  | present i rest hn => exact ⟨.inl rfl, .inl ha, .inl ⟨rfl, rfl, fun _ hp _ => by simp [hn] at hp⟩⟩
  | stale n _ _ t ht =>
    obtain ⟨_, _, _, rfl⟩ := State.staleStep_frame ht
    exact ⟨.inl rfl, .inl ha, .inl ⟨rfl, rfl, fun _ hp _ => hp⟩⟩
  | reset m hm => exact ⟨.inl rfl, .inr rfl, .inr ⟨m, hm⟩⟩

/-- Settles O33, by the action that completes: COMPLETE is the step, and the block has not faulted (R44, R45). -/
theorem completionsClearInflight : Obligations.CompletionsClearInflight := by
  intro s a h rest hs hp hf hi ht
  rw [step_complete hs hp hi ht]
  cases a with
  | openDev dev => simp [State.complete, hf]
  | setClock hz => rfl
  | tx w => rfl

/-! ### Writes at acceptance (R42) -/

/-- Settles O52: a step keeps the five registers, or it is a request's ACCEPT step, or a reset. -/
theorem registersChangeOnlyAtAcceptance : Obligations.RegistersChangeOnlyAtAcceptance := by
  intro s t ht hne
  rcases step_registers ht with ⟨hl, hm, hs, hb, hw⟩ | haccept | ⟨hreset, -⟩
  · simp [hl, hm, hs, hb, hw] at hne
  · exact .inr haccept
  · exact .inl hreset

/-! ### The reference chip (R45) -/

/-- A read after a row write: the row written, or what was there (R45). -/
theorem Chip.read_write (c : Chip) (o : Nat) (row : Row) (r : Nat) :
    (c.write o row).read r = if r = o then row else c.read r := by
  by_cases hr : r = o
  · rw [if_pos hr, hr, c.read_write_same]
  · rw [if_neg hr, c.read_write_other row hr]

/-- Under the target `none` a write word of the last row writes that row (R45). -/
theorem chipApply_last_none {n : Nat} (c : Chip) {w : Word} (h : isWriteWord w) (ha : n ≤ addrOf w + 1) :
    chipApply .none n c w = c.write (addrOf w) (rowOf w) := by
  simp only [chipApply, if_pos h, if_neg (Nat.not_lt.2 ha)]

/-- Under the target `row0` a write word of the last row writes that row and pre-stages row 0 (R45). -/
theorem chipApply_last_row0 {n : Nat} (c : Chip) {w : Word} (h : isWriteWord w) (ha : n ≤ addrOf w + 1) :
    chipApply .row0 n c w = (c.write (addrOf w) (rowOf w)).prestage 0 (w.getLsbD 1) (w.getLsbD 0) := by
  simp only [chipApply, if_pos h, if_neg (Nat.not_lt.2 ha)]

/-- Under the target `unknown` a write word of the last row writes that row and loses row 0's first two columns (R45). -/
theorem chipApply_last_unknown {n : Nat} (c : Chip) {w : Word} (h : isWriteWord w) (ha : n ≤ addrOf w + 1) :
    chipApply .unknown n c w = (c.write (addrOf w) (rowOf w)).loseRow0 := by
  simp only [chipApply, if_pos h, if_neg (Nat.not_lt.2 ha)]

/-- Every row of chip RAM after a write word of a row that has a next one (R45). -/
theorem chipApply_write_read (target : LastRowTarget) {n : Nat} (c : Chip) {w : Word} (h : isWriteWord w)
    (ha : addrOf w + 1 < n) (r : Nat) :
    (chipApply target n c w).read r =
      if r = addrOf w then rowOf w
      else if r = addrOf w + 1 then ⟨w.getLsbD 1, w.getLsbD 0, (c.read r).c2, (c.read r).c3⟩
      else c.read r := by
  rw [chipApply_write target n c w h ha]
  by_cases hr : r = addrOf w + 1
  · subst hr
    simp [Chip.read_write]
  · rw [if_neg hr, Chip.read_prestage_other _ _ _ hr, Chip.read_write]

/-- Every row but row 0 of chip RAM after a write word of the last row (R45). -/
theorem chipApply_last_read_other (target : LastRowTarget) {n : Nat} (c : Chip) {w : Word} (h : isWriteWord w)
    (ha : n ≤ addrOf w + 1) {r : Nat} (hr : r ≠ 0) :
    (chipApply target n c w).read r = if r = addrOf w then rowOf w else c.read r := by
  rw [← Chip.read_write]
  cases target with
  | none => rw [chipApply_last_none c h ha]
  | row0 => rw [chipApply_last_row0 c h ha, Chip.read_prestage_other _ _ _ hr]
  | unknown => rw [chipApply_last_unknown c h ha, Chip.read_loseRow0_other _ hr]

/-- Row 0 of chip RAM after a write word of the last row, which is another row, under each target (R45, decision D27). -/
theorem chipApply_last_read_zero (target : LastRowTarget) {n : Nat} (c : Chip) {w : Word} (h : isWriteWord w)
    (ha : n ≤ addrOf w + 1) (h0 : addrOf w ≠ 0) :
    ((chipApply target n c w).read 0).c2 = (c.read 0).c2 ∧ ((chipApply target n c w).read 0).c3 = (c.read 0).c3
      ∧ (target = .none → (chipApply target n c w).read 0 = c.read 0)
      ∧ (target = .row0 → ((chipApply target n c w).read 0).c0 = w.getLsbD 1
          ∧ ((chipApply target n c w).read 0).c1 = w.getLsbD 0) := by
  have hold : (c.write (addrOf w) (rowOf w)).read 0 = c.read 0 := c.read_write_other _ h0.symm
  cases target with
  | none => simp [chipApply_last_none c h ha, hold]
  | row0 => simp [chipApply_last_row0 c h ha, hold]
  | unknown =>
    have hlost := (c.write (addrOf w) (rowOf w)).read_loseRow0_same
    rw [hold] at hlost
    simp [chipApply_last_unknown c h ha, hlost]

/-- Settles O56, by the word: a command word, a write word of a row that has a next one, and one of the last row. -/
theorem chipTakesAWordAsTheReferenceModelSays : Obligations.ChipTakesAWordAsTheReferenceModelSays := by
  rintro target n _ c w _ rfl rfl
  refine ⟨chipApply_command target n c w, fun h ha r => chipApply_write_read target c h ha r, fun h ha h0 => ?_⟩
  exact ⟨fun _ hr => chipApply_last_read_other target c h ha hr, chipApply_last_read_zero target c h ha h0⟩

end Sys2Proof.Machine

/-! The statements of `30_encoding.md`: the words the block may emit, how a word is decoded and built, and the two row writers
that share one meaning. -/

namespace Sys2Proof.Machine

/-! ### Decoding, case by case (R56) -/

/-- The level a word stands for is one of the sixteen, and the word is that level's (R53). -/
theorem pwmLevelOf_eq_some {p : Params} {w : Word} {l : Nat} (h : pwmLevelOf p w = some l) :
    l < 16 ∧ w.toNat = p.pwmBase + l * p.pwmStep := by
  obtain ⟨hw, hl, -⟩ := List.find?_range_eq_some.1 h
  exact ⟨List.mem_range.1 hl, by simpa using hw⟩

/-- The words that stand for no level are those that are no level's word (R53). -/
theorem pwmLevelOf_eq_none {p : Params} {w : Word} :
    pwmLevelOf p w = none ↔ ∀ l < 16, w.toNat ≠ p.pwmBase + l * p.pwmStep := by
  simp [pwmLevelOf]

/-- Under R6's constraints the mask takes nothing off a level's word (R54). -/
theorem pwmWord_toNat {p : Params} (h : p.Valid) {l : Nat} (hl : l < 16) :
    (BitVec.ofNat 16 (p.pwmBase + l * p.pwmStep)).toNat = p.pwmBase + l * p.pwmStep := by
  have hle : l * p.pwmStep ≤ 15 * p.pwmStep := Nat.mul_le_mul_right _ (by omega)
  have := h.1
  rw [BitVec.toNat_ofNat]
  omega

/-- Under R6's constraints the sixteen words are distinct, so a level's word stands for that level (R53). -/
theorem pwmLevelOf_pwmWord {p : Params} (h : p.Valid) {l : Nat} (hl : l < 16) :
    pwmLevelOf p (BitVec.ofNat 16 (p.pwmBase + l * p.pwmStep)) = some l := by
  cases hk : pwmLevelOf p (BitVec.ofNat 16 (p.pwmBase + l * p.pwmStep)) with
  | none => exact absurd (pwmWord_toNat h hl) (pwmLevelOf_eq_none.1 hk l hl)
  | some k =>
    obtain ⟨-, hw⟩ := pwmLevelOf_eq_some hk
    rw [pwmWord_toNat h hl] at hw
    have hmul : l * p.pwmStep = k * p.pwmStep := by omega
    rw [Nat.eq_of_mul_eq_mul_right (Nat.pos_of_ne_zero h.2) hmul]

/-- The fixed words being distinct, each decodes to its own call (R56 step 1). -/
theorem decode_fixedWords {p : Params} (h : p.fixedWords.Nodup) :
    decode p p.cmdSysDis = .ok .sysDis ∧ decode p p.cmdSysEn = .ok .sysEn ∧ decode p p.cmdLedOn = .ok .ledOn
      ∧ decode p p.cmdLedOff = .ok .ledOff ∧ decode p p.cmdBlinkOn = .ok .blinkOn
      ∧ decode p p.cmdBlinkOff = .ok .blinkOff ∧ decode p p.cmdMaster = .ok .master := by
  -- Reversed, the list says of each word that it is none of those `classify` tries before it.
  have hlater := List.nodup_reverse.2 h
  simp only [List.reverse_cons, List.reverse_nil, List.nil_append, List.cons_append, List.nodup_cons, List.mem_cons,
    List.not_mem_nil, or_false, not_or] at hlater
  simp [decode, hlater]

/-- A word that is no fixed word, name by name. -/
theorem not_mem_fixedWords {p : Params} {w : Word} : w ∉ p.fixedWords ↔
    w ≠ p.cmdSysDis ∧ w ≠ p.cmdSysEn ∧ w ≠ p.cmdLedOn ∧ w ≠ p.cmdLedOff ∧ w ≠ p.cmdBlinkOn ∧ w ≠ p.cmdBlinkOff
      ∧ w ≠ p.cmdMaster := by simp

section
variable {p : Params} {w : Word} (hf : w ∉ p.fixedWords)
include hf

/-- A mode word that is no fixed word decodes to its mode (R56 step 2). -/
theorem decode_mode (hm : w ∈ modeConstants) : decode p w = .ok (.mode w.toNat) := by
  simp only [decode, not_mem_fixedWords.1 hf, if_false]
  exact if_pos hm

variable (hm : w ∉ modeConstants)
include hm

/-- Past the fixed words and the mode words, `classify` asks for a level (R56 step 3). -/
theorem decode_pwm {l : Nat} (hl : pwmLevelOf p w = some l) : decode p w = .ok (.pwm l) := by
  simp only [decode, not_mem_fixedWords.1 hf, hl, if_false]
  exact if_neg hm

/-- Past the words of a level too, `classify` asks for the `WRITE` format (R56 step 4). -/
theorem decode_write (hn : pwmLevelOf p w = none) (hw : isWriteWord w) :
    decode p w = .ok (.write (w.extractLsb 12 6).toNat (w.getLsbD 5) (w.getLsbD 4) (w.getLsbD 3) (w.getLsbD 2)
      (w.getLsbD 1) (w.getLsbD 0)) := by
  simp only [decode, not_mem_fixedWords.1 hf, hn, if_false]
  exact (if_neg hm).trans (if_pos hw)

/-- A word of none of the four sets is not emitted (R56 step 5). -/
theorem decode_notEmitted (hn : pwmLevelOf p w = none) (hw : ¬ isWriteWord w) : decode p w = .error (.notEmitted w) := by
  simp only [decode, not_mem_fixedWords.1 hf, hn, if_false]
  exact (if_neg hm).trans (if_neg hw)

end

/-! ### Round trips (R49, R53, R55, R56) -/

/-- A well-formed mode's word is a mode constant, and its value is the operand (R13, R55). -/
theorem wf_mode_word {m : Int} (h : (Instr.mode m).wf = true) :
    BitVec.ofInt 16 m ∈ modeConstants ∧ ((BitVec.ofInt 16 m).toNat : Int) = m := by
  simp only [Instr.wf, Bool.or_eq_true, beq_iff_eq] at h
  obtain ((rfl | rfl) | rfl) | rfl := h <;> decide

/-- The mode constants are no write words (R13, R49). -/
theorem modeConstant_not_write : ∀ w ∈ modeConstants, ¬ isWriteWord w := by
  simp only [List.forall_mem_cons, List.not_mem_nil, false_implies, implies_true]
  decide

/-- A write word stands for no level, the word sets being apart (R56). -/
theorem pwmLevelOf_writeWord {p : Params} (h : p.Separated) {w : Word} (hw : isWriteWord w) :
    pwmLevelOf p w = none := by
  refine pwmLevelOf_eq_none.2 fun l hl he => (h.2.2 l hl).2 ?_
  rwa [← he, BitVec.ofNat_toNat, BitVec.setWidth_eq]

/-- Settles O7, by the call: the word sets being apart, `classify` reaches the step of the call's own set, and there the
operands are read back. -/
theorem decodeOfEncodeIsTheCall : Obligations.DecodeOfEncodeIsTheCall := by
  intro p i w hv hs hwf he
  obtain ⟨hfixed, -, hapart⟩ := List.nodup_append'.1 hs.1
  obtain ⟨hsysDis, hsysEn, hledOn, hledOff, hblinkOn, hblinkOff, hmaster⟩ := decode_fixedWords hfixed
  cases i with
  | sysDis => cases he; exact hsysDis
  | sysEn => cases he; exact hsysEn
  | ledOn => cases he; exact hledOn
  | ledOff => cases he; exact hledOff
  | blinkOn => cases he; exact hblinkOn
  | blinkOff => cases he; exact hblinkOff
  | master => cases he; exact hmaster
  | mode m =>
    cases he
    obtain ⟨hmem, hm⟩ := wf_mode_word hwf
    rw [decode_mode (fun hf => hapart hf hmem) hmem, hm]
  | pwm level =>
    cases he
    obtain ⟨h0, h16⟩ : 0 ≤ level ∧ level < 16 := of_decide_eq_true hwf
    have hl : level.toNat < 16 := by omega
    obtain ⟨hf, hm⟩ := not_or.1 (mt List.mem_append.2 (hs.2.2 _ hl).1)
    rw [decode_pwm hf hm (pwmLevelOf_pwmWord hv hl), Int.toNat_of_nonneg h0]
  | write offset d0 d1 d2 d3 la0 la1 =>
    cases he
    obtain ⟨h0, h128⟩ : 0 ≤ offset ∧ offset < 128 := of_decide_eq_true hwf
    obtain ⟨hw, ha, h5, h4, h3, h2, h1, hl⟩ := writeLayout_fields (BitVec.ofNat 7 offset.toNat) d0 d1 d2 d3 la0 la1
    have ho : ((BitVec.ofNat 7 offset.toNat).toNat : Int) = offset := by
      rw [BitVec.toNat_ofNat]
      omega
    rw [decode_write (fun hf => fixedWord_not_write hs hf hw) (fun hm => modeConstant_not_write _ hm hw)
      (pwmLevelOf_writeWord hs hw) hw, ha, h5, h4, h3, h2, h1, hl, ho]
  | _ => cases he

/-- A mode constant is a well-formed mode's word (R55). -/
theorem modeConstant_wf : ∀ w ∈ modeConstants,
    (Instr.mode w.toNat).wf = true ∧ BitVec.ofInt 16 (w.toNat : Int) = w := by
  simp only [List.forall_mem_cons, List.not_mem_nil, false_implies, implies_true]
  decide

/-- The call of the level a word stands for is well formed and has that word (R53). -/
theorem pwmLevelOf_encode {p : Params} {w : Word} {l : Nat} (h : pwmLevelOf p w = some l) :
    (Instr.pwm l).wf = true ∧ encode p (.pwm l) = some w := by
  obtain ⟨hl, hw⟩ := pwmLevelOf_eq_some h
  exact ⟨decide_eq_true (by omega), by simp [encode, ← hw]⟩

/-- The call read off a write word is well formed and has that word (R49). -/
theorem writeWord_encode {p : Params} {w : Word} (h : isWriteWord w) :
    let i := Instr.write (w.extractLsb 12 6).toNat (w.getLsbD 5) (w.getLsbD 4) (w.getLsbD 3) (w.getLsbD 2)
      (w.getLsbD 1) (w.getLsbD 0)
    i.wf = true ∧ encode p i = some w := by
  have ha := (w.extractLsb 12 6).isLt
  refine ⟨?_, ?_⟩
  · simp only [Instr.wf, decide_eq_true_eq]
    omega
  · rw [encode, Int.toNat_natCast, BitVec.ofNat_toNat, BitVec.setWidth_eq, writeLayout_of_word w h]

/-- Settles O8, by the step of `classify` that answers: there the word is that of the call read off it. -/
theorem encodeOfDecodeIsTheWord : Obligations.EncodeOfDecodeIsTheWord := by
  intro p i w h
  suffices hword : i.wf = true ∧ encode p i = some w from ⟨hword.1, decode_isEncoderCall h, hword.2⟩
  unfold decode at h
  split_ifs at h with h1 h2 h3 h4 h5 h6 h7 hm hw
  · cases h; exact ⟨rfl, congrArg some h1.symm⟩
  · cases h; exact ⟨rfl, congrArg some h2.symm⟩
  · cases h; exact ⟨rfl, congrArg some h3.symm⟩
  · cases h; exact ⟨rfl, congrArg some h4.symm⟩
  · cases h; exact ⟨rfl, congrArg some h5.symm⟩
  · cases h; exact ⟨rfl, congrArg some h6.symm⟩
  · cases h; exact ⟨rfl, congrArg some h7.symm⟩
  · cases h
    obtain ⟨hwf, hw⟩ := modeConstant_wf w hm
    exact ⟨hwf, congrArg some hw⟩
  -- The level is asked for before the `WRITE` format, so it may answer whether or not the word has that format.
  · split at h
    · rename_i l hl
      cases h
      exact pwmLevelOf_encode hl
    · cases h
      exact writeWord_encode hw
  · split at h
    · rename_i l hl
      cases h
      exact pwmLevelOf_encode hl
    · cases h

/-- In the reference configuration every word but a write word has the ID `0b100` (R56, R57). -/
theorem reference_words_id :
    (∀ w ∈ Params.reference.fixedWords ++ modeConstants, w.extractLsb 15 13 = (0b100 : BitVec 3))
      ∧ ∀ l < 16, (BitVec.ofNat 16 (Params.reference.pwmBase + l * Params.reference.pwmStep)).extractLsb 15 13
          = (0b100 : BitVec 3) := by
  simp only [Params.reference, List.forall_mem_append, List.forall_mem_cons, List.not_mem_nil, false_implies, implies_true]
  decide

/-- Settles O9: a word of another ID is in none of the four sets. -/
theorem otherIdsAreNotEmitted : Obligations.OtherIdsAreNotEmitted := by
  intro w h4 h5
  obtain ⟨hcommand, hpwm⟩ := reference_words_id
  have hnone : pwmLevelOf .reference w = none := by
    refine pwmLevelOf_eq_none.2 fun l hl he => h4 ?_
    rw [← hpwm l hl, ← he, BitVec.ofNat_toNat, BitVec.setWidth_eq]
  exact decode_notEmitted (fun hf => h4 (hcommand w (List.mem_append_left _ hf)))
    (fun hm => h4 (hcommand w (List.mem_append_right _ hm))) hnone h5

/-! ### The bounds of the write words (R54, R57, R72) -/

/-- A word of `ENC_WRITE` is at most the last row's with every column set and no lookahead; with a lookahead bit set it stays
below every word of the last row. -/
theorem encWrite_bounds {n : Nat} (hn : n ≤ 96) {o : Int} {d0 d1 d2 d3 l0 l1 : Bool} {w : Word}
    (h : encWrite n o d0 d1 d2 d3 l0 l1 = .ok w) :
    w.toNat ≤ 0x9FFC + 64 * n ∧ (w.getLsbD 0 = true ∨ w.getLsbD 1 = true → w.toNat < 0x9FC0 + 64 * n) := by
  have hin : 0 ≤ o ∧ o < n := by
    by_contra hout
    rw [encWrite, if_neg hout] at h
    cases h
  rw [encWrite_layout hn hin.1 hin.2] at h
  cases h
  obtain ⟨-, -, -, -, -, -, h1, h0⟩ := writeLayout_fields (BitVec.ofNat 7 o.toNat) d0 d1 d2 d3
    (l0 && decide (o ≠ n - 1)) (l1 && decide (o ≠ n - 1))
  rw [h0, h1, writeLayout_toNat, BitVec.toNat_ofNat]
  have := d0.toNat_le
  have := d1.toNat_le
  have := d2.toNat_le
  have := d3.toNat_le
  by_cases hlast : o = n - 1
  · simp only [hlast, ne_eq, not_true, decide_false, Bool.and_false, Bool.toNat_false]
    exact ⟨by omega, nofun⟩
  · have := (l0 && decide (o ≠ n - 1)).toNat_le
    have := (l1 && decide (o ≠ n - 1)).toNat_le
    exact ⟨by omega, fun _ => by omega⟩

/-- Settles O6: the bounds at 96 and at 64 rows. -/
theorem writeWordsAreBounded : Obligations.WriteWordsAreBounded := fun _ _ _ _ _ _ _ _ =>
  ⟨fun h => (encWrite_bounds (by decide) h).imp_right fun hb hla => Nat.le_of_lt_succ (hb hla),
    fun h => (encWrite_bounds (by decide) h).imp_right fun hb hla => Nat.le_of_lt_succ (hb hla)⟩

/-! ### The words in hand (R55, R57, R66) -/

/-- The words of the bring-up sequence are emitted: `CMD_LED_OFF` is not among them (R66, R75). -/
theorem bringUp_emitted {p : Params} {m : Mode} {w : Word} (h : .tx w ∈ bringUp p m) : Emitted p m w := by
  simp only [bringUp_eq, List.mem_cons, Action.tx.injEq, List.not_mem_nil, or_false] at h
  rcases h with h | h | h | h | h | h | h
  · exact .inl (by simp [h])
  · exact .inr (.inl h)
  · exact .inl (by simp [h])
  · exact .inl (by simp [h])
  · exact .inl (by simp [h])
  · exact .inr (.inr (.inl ⟨15, by decide, h⟩))
  · exact .inl (by simp [h])

/-- The row-write path builds a word of an existing row, with no lookahead at the last one (R35, R72). -/
theorem State.writeRow_emitted (s : State) {o : Nat} (ho : o < s.rowCount) (row : Row) {w : Word}
    (h : .tx w ∈ (s.writeRow o row).2) : Emitted s.params s.mode w := by
  rw [s.writeRow_eq, s.encWrite_lookahead ho] at h
  obtain rfl := Action.tx.inj (List.mem_singleton.1 h)
  refine .inr (.inr (.inr ?_))
  split
  · rename_i hnext
    exact ⟨o, _, _, _, _, _, _, ho, fun hlast => absurd hlast hnext.ne, rfl⟩
  · exact ⟨o, _, _, _, _, _, _, ho, fun _ => ⟨rfl, rfl⟩, rfl⟩

/-- The clearing of existing rows builds words of existing rows (R83). -/
theorem State.clearRows_emitted (s : State) (l : List Nat) (h : ∀ i ∈ l, i < s.rowCount) {w : Word}
    (hw : .tx w ∈ (s.clearRows l).2) : Emitted s.params s.mode w := by
  induction l generalizing s with
  | nil => simp [State.clearRows] at hw
  | cons i l ih =>
    rw [State.clearRows] at hw
    rcases List.mem_append.1 hw with hw | hw
    · exact s.writeRow_emitted (h i (by simp)) .clear hw
    · exact ih (s.writeRow i .clear).1 (fun j hj => h j (by simp [hj])) hw

/-- A move that leaves no action in hand but those that were keeps the words in hand emitted. -/
theorem State.OnlyEmitted.of_subset {s t : State} (h : s.OnlyEmitted) (hp : t.params = s.params) (hm : t.mode = s.mode)
    (hsub : t.inflight.toList ++ t.queue ⊆ s.inflight.toList ++ s.queue) : t.OnlyEmitted := by
  intro w hw
  rw [hp, hm]
  exact h w (hsub hw)

/-- With nothing in flight, the words in hand are those of the queue. -/
theorem State.onlyEmitted_of_queue {t : State} (hi : t.inflight = none)
    (hq : ∀ w, .tx w ∈ t.queue → Emitted t.params t.mode w) : t.OnlyEmitted := by
  intro w hw
  rw [hi] at hw
  exact hq w hw

/-- Every operation that the block may run builds words it may emit. -/
theorem exec_keeps_onlyEmitted {i : Instr} {s t : State} (ht : exec i s = .next t)
    (hi : i.isEncoderCall = true ∨ s.idle ∧ s.fault = .none) (h : s.OnlyEmitted) : t.OnlyEmitted := by
  have hc := exec_cases ht
  rcases hi with hi | ⟨⟨hq, hin, -⟩, -⟩
  · obtain ⟨r, rfl⟩ := exec_call ht hi
    exact h
  cases hc with
  | sampled r => exact h
  | notReady => exact h.of_subset (by simp) (by simp) (by simp)
  | reinit => exact h.of_subset (by simp) (by simp) (by simp)
  | invalid => exact h
  | init m k => exact State.onlyEmitted_of_queue hin fun w hw => bringUp_emitted (by simpa using hw)
  | getBlink => exact State.onlyEmitted_of_queue hin nofun
  | setBlink b =>
    refine State.onlyEmitted_of_queue hin fun w hw => .inl ?_
    obtain rfl := Action.tx.inj (List.mem_singleton.1 hw)
    cases b <;> simp
  | getPwm => exact State.onlyEmitted_of_queue hin nofun
  | setPwm n =>
    refine State.onlyEmitted_of_queue hin fun w hw => .inr (.inr (.inl ⟨n.toNat, n.isLt, ?_⟩))
    exact Action.tx.inj (List.mem_singleton.1 hw)
  | row o row _ ho => exact State.onlyEmitted_of_queue hin fun w hw => s.writeRow_emitted ho row hw
  | clear =>
    rw [s.clearRows_frame]
    exact State.onlyEmitted_of_queue hin fun w hw => s.clearRows_emitted _ (fun _ => List.mem_range.1) hw
  | readMap => exact State.onlyEmitted_of_queue hin nofun

/-- Settles O48, by the mover of the step: only an accepted request builds words, and no other move adds to the actions in
hand. -/
theorem everyStepKeepsOnlyEmittedWords : Obligations.EveryStepKeepsOnlyEmittedWords := by
  intro s t h ht
  cases step_cases ht with
  | wait => exact h
  | run i _ hi t ht => exact exec_keeps_onlyEmitted ht hi h
  | issue a rest _ hi hq => exact h.of_subset rfl rfl (by simp [State.popped, hi, hq])
  | deliver r => exact h
  | complete a c rest =>
    obtain ⟨hp, -, hi, hq, -, -, hm, -⟩ := State.complete_frame { s.popped with transport := rest } a c
    exact h.of_subset hp hm (by rw [hi, hq]; exact List.subset_append_right _ _)
  | present i rest => exact h
  | stale n _ _ t ht =>
    obtain ⟨_, _, _, rfl⟩ := State.staleStep_frame ht
    exact h
  | reset => exact State.onlyEmitted_of_queue rfl nofun

/-! ### The two row writers (R60) -/

/-- `WRITE_ADDR` with operands that pass validation (R81). -/
theorem exec_writeAddr_valid (s : State) {o : Nat} (ho : o < s.rowCount) (row : Row) :
    exec (.writeAddr (.vInt o) (.vBool row.c0) (.vBool row.c1) (.vBool row.c2) (.vBool row.c3)) s
      = whenReady s fun s => s.acceptRow o row := by
  have hi := indexOperand_eq_some.2 ⟨rfl, ho⟩
  have hr := (rowOperand_eq_some (row := row)).2 ⟨rfl, rfl, rfl, rfl⟩
  rcases s.life.cases with h | h <;> simp [exec, execWriteAddr, h, hi, hr]

/-- `WRITE_LED` with operands that pass validation (R82). -/
theorem exec_writeLed_valid (s : State) {o k : Nat} (ho : o < s.rowCount) (hk : k < 4) (v : Bool) :
    exec (.writeLed (.vInt o) (.vInt k) (.vBool v)) s
      = whenReady s fun s => s.acceptRow o ((s.memRead o).subst k v) := by
  have hi := indexOperand_eq_some.2 ⟨rfl, ho⟩
  have hl : ledOperand (.vInt k) = some k := indexOperand_eq_some.2 ⟨rfl, hk⟩
  rcases s.life.cases with h | h <;> simp [exec, execWriteLed, h, hi, hl]

/-- Settles O23: with operands that pass validation both requests write one row after the lifecycle check. -/
theorem writeLedIsWriteAddrOfTheChangedRow : Obligations.WriteLedIsWriteAddrOfTheChangedRow := by
  rintro s o k v row ho hk rfl
  rw [exec_writeLed_valid s ho hk v, exec_writeAddr_valid s ho]
  rcases s.life.cases with h | h <;> simp [h]

end Sys2Proof.Machine

/-! The statements of `40_encoder.md`: what each encoder function answers, and that a call of one changes only the sampled
output. -/

namespace Sys2Proof.Machine

/-! ### `ENC_PWM` (R53, R54, R71) -/

section
variable (p : Params) {level : Int}

theorem encPwm_of_level (h0 : 0 ≤ level) (h15 : level ≤ 15) :
    encPwm p level = .ok (BitVec.ofNat 16 (p.pwmBase + level.toNat * p.pwmStep)) :=
  if_pos ⟨h0, h15⟩

theorem encPwm_of_not_level (h : level < 0 ∨ 15 < level) : encPwm p level = .invalidArgument :=
  if_neg (by omega)

end

/-- Only a level gets a word, since any other integer is refused (R71). -/
theorem level_of_encPwm_eq_ok {p : Params} {level : Int} {w : Word} (h : encPwm p level = .ok w) :
    0 ≤ level ∧ level ≤ 15 := by
  by_contra hout
  rw [encPwm_of_not_level p (by omega)] at h
  cases h

/-- Under R6's constraints no other integer has a level's result: the level can be read back from the word (R53). -/
theorem encPwm_injective {p : Params} (hv : p.Valid) {level other : Int} (h0 : 0 ≤ level) (h15 : level ≤ 15)
    (h : encPwm p other = encPwm p level) : other = level := by
  rw [encPwm_of_level p h0 h15] at h
  obtain ⟨h0', h15'⟩ := level_of_encPwm_eq_ok h
  rw [encPwm_of_level p h0' h15'] at h
  have hread := congrArg (pwmLevelOf p) (EncResult.ok.inj h)
  rw [pwmLevelOf_pwmWord hv (by omega), pwmLevelOf_pwmWord hv (by omega)] at hread
  have hnat : other.toNat = level.toNat := Option.some.inj hread
  omega

/-- Settles O4, by the range of the level; that no other integer has the word is `encPwm_injective`. -/
theorem encPwmIsBasePlusLevelTimesStep : Obligations.EncPwmIsBasePlusLevelTimesStep := by
  refine ⟨fun p level => ⟨fun h0 h15 => ⟨encPwm_of_level p h0 h15, fun hv => ⟨?_, ?_⟩⟩, encPwm_of_not_level p⟩,
    rfl, rfl, rfl⟩
  · exact pwmWord_toNat hv (by omega)
  · exact fun _ => encPwm_injective hv h0 h15

/-! ### `ENC_WRITE` (R49, R72) -/

section
variable {n : Nat} {o : Int} (d0 d1 d2 d3 l0 l1 : Bool)

/-- Before the last row the lookahead bits are the ones given (R72). -/
theorem encWrite_before_last (hn : n ≤ 96) (h0 : 0 ≤ o) (h : o + 1 < n) :
    encWrite n o d0 d1 d2 d3 l0 l1 = .ok (writeLayout (BitVec.ofNat 7 o.toNat) d0 d1 d2 d3 l0 l1) := by
  have hkeep : o ≠ n - 1 := by omega
  rw [encWrite_layout hn h0 (by omega), decide_eq_true hkeep, Bool.and_true, Bool.and_true]

/-- At the last row the lookahead bits are 0 whatever they are given (R72). -/
theorem encWrite_last (hn : n ≤ 96) (h0 : 0 ≤ o) (h : o + 1 = n) :
    encWrite n o d0 d1 d2 d3 l0 l1 = .ok (writeLayout (BitVec.ofNat 7 o.toNat) d0 d1 d2 d3 false false) := by
  have hlast : ¬ o ≠ n - 1 := by omega
  rw [encWrite_layout hn h0 (by omega), decide_eq_false hlast, Bool.and_false, Bool.and_false]

theorem encWrite_of_not_row (h : o < 0 ∨ n ≤ o) : encWrite n o d0 d1 d2 d3 l0 l1 = .outOfRange :=
  if_neg (by omega)

end

/-- Settles O5, by where the offset lies: before the last row, at it, or outside the rows. -/
theorem encWriteIsTheFieldLayout : Obligations.EncWriteIsTheFieldLayout := by
  intro n o d0 d1 d2 d3 l0 l1 hn
  have hle : n ≤ 96 := by omega
  refine ⟨?_, fun hlast => ?_, ?_⟩
  · exact encWrite_before_last d0 d1 d2 d3 l0 l1 hle
  · exact encWrite_last d0 d1 d2 d3 l0 l1 hle (by omega) hlast
  · exact encWrite_of_not_row d0 d1 d2 d3 l0 l1

/-! ### The constant functions and the calls (R62 to R69) -/

/-- Settles O1: each function is its parameter by definition, and the reference configuration fixes the values
(R63 to R69). -/
theorem fixedWordFunctionsReturnTheirParameters : Obligations.FixedWordFunctionsReturnTheirParameters :=
  ⟨fun _ => ⟨rfl, rfl, rfl, rfl, rfl, rfl, rfl⟩, rfl, rfl, rfl, rfl, rfl, rfl, rfl⟩

/-- Settles O2: the meaning of each of the ten calls is `State.sampled` of its encoder function's result, in any state. -/
theorem encoderCallsCompleteInEveryState : Obligations.EncoderCallsCompleteInEveryState := fun _ =>
  ⟨rfl, rfl, rfl, rfl, rfl, rfl, rfl, fun _ => rfl, fun _ => rfl, fun _ _ _ _ _ _ _ => rfl⟩

/-! ### `ENC_MODE` (R13, R70) -/

/-- `ENC_MODE` is the identity on the mode constants (R70). -/
theorem encMode_of_constant {m : Int} (h : m ∈ ([0x8400, 0x8480, 0x8500, 0x8580] : List Int)) :
    ∃ w, encMode m = .ok w ∧ (w.toNat : Int) = m := by
  simp only [List.mem_cons, List.not_mem_nil, or_false] at h
  rcases h with rfl | rfl | rfl | rfl <;> exact ⟨_, rfl, rfl⟩

theorem encMode_of_not_constant {m : Int} (h : m ∉ ([0x8400, 0x8480, 0x8500, 0x8580] : List Int)) :
    encMode m = .invalidArgument := by
  simp only [List.mem_cons, List.not_mem_nil, or_false] at h
  exact if_neg h

/-- A mode's word holds `PMOS` at bit 8 and `COM16` at bit 7 (R13, R70). -/
theorem Mode.word_bits (k : Mode) : k.word.getLsbD 8 = k.pmos ∧ k.word.getLsbD 7 = k.com16 := by
  obtain ⟨c, p⟩ := k
  cases c <;> cases p <;> decide

/-- Settles O3, by whether the operand is a mode constant; a mode's word is one. -/
theorem encModeIsTheIdentityOnTheModeConstants : Obligations.EncModeIsTheIdentityOnTheModeConstants :=
  ⟨fun _ => encMode_of_constant, fun _ => encMode_of_not_constant, fun k => ⟨encMode_word k, k.word_bits⟩⟩

end Sys2Proof.Machine

/-! The statements of `41_controller_config.md`: what `INIT` and the configuration requests do, and the ISSUE and DELIVER steps
of the request cycle. -/

namespace Sys2Proof.Machine

/-! ### `INIT` and the bring-up sequence (R74, R75, R104) -/

/-- A mode's own word passes `INIT`'s validation and selects that mode (R13, R74). -/
theorem modeOperand_word (m : Mode) : modeOperand (some (.vInt m.word.toNat)) = some m := modeOf_word m

/-- `INIT` with a valid operand, before any other `INIT`, is accepted (R74). -/
theorem exec_init_valid {s : State} (hl : s.life = .uninit) {mode : Option Val} {m : Mode}
    (hm : modeOperand mode = some m) : exec (.init mode) s = .next (s.acceptInit m) := by
  simp [exec, execInit, hl, hm]

/-- Settles O16: the operand is valid, so the request is accepted, and `State.acceptInit` writes each element as stated; the
map it leaves lists no row, and such a map reads as all-false (R15, R74). -/
theorem initBringsTheBlockUp : Obligations.InitBringsTheBlockUp := by
  intro s mode m hl hmode
  have hm : modeOperand mode = some m := by
    rcases hmode with ⟨rfl, rfl⟩ | rfl
    · exact modeOperand_none
    · exact modeOperand_word m
  exact ⟨s.acceptInit m, exec_init_valid hl hm, rfl, fun _ => rfl⟩

/-- Settles O15: the general form is `bringUp_eq`, whose words the reference configuration fixes (R6, R75). -/
theorem bringUpIsTheSevenWords : Obligations.BringUpIsTheSevenWords :=
  ⟨bringUp_eq, bringUp_eq .reference defaultMode⟩

/-! ### The configuration requests (R76 to R79) -/

/-- A request other than `INIT` that comes before it makes a block without a fault take `NOT_READY`, and changes nothing
else (R91). -/
theorem whenReady_uninit_of_no_fault {s : State} (f : State → State) (hl : s.life = .uninit) (hf : s.fault = .none) :
    whenReady s f = .next { s with fault := .notReady } := by
  rw [whenReady_uninit s f hl, s.takeFault_of_none _ hf]

/-- `GET_BLINK`, after the lifecycle check (R76). -/
theorem exec_getBlink (s : State) : exec .getBlink s = whenReady s fun s => s.load [] (.okBool s.blink) := rfl

/-- `GET_PWM`, after the lifecycle check (R78). -/
theorem exec_getPwm (s : State) : exec .getPwm s = whenReady s fun s => s.load [] (.okLevel s.pwm) := rfl

/-- `SET_BLINK` of a boolean, after the lifecycle check: each value has a word of its own (R77). -/
theorem exec_setBlink_valid (s : State) (b : Bool) :
    exec (.setBlink (.vBool b)) s = whenReady s fun s =>
      { s with blink := b }.load [.tx (if b then s.params.cmdBlinkOn else s.params.cmdBlinkOff)] .ok := by
  cases b with
  | true => rfl
  | false => rfl

/-- `SET_PWM` of a level register's value, after the lifecycle check (R79). -/
theorem exec_setPwm_valid (s : State) (level : BitVec 4) :
    exec (.setPwm (.vInt level.toNat)) s = whenReady s fun s =>
      { s with pwm := level }.load
        [.tx (BitVec.ofNat 16 (s.params.pwmBase + level.toNat * s.params.pwmStep))] .ok := by
  simp only [exec, execSetPwm, levelOperand_vInt, encPwm_level, txOf]

/-- Settles O17, by the lifecycle check (R76). -/
theorem getBlinkAnswersTheFlag : Obligations.GetBlinkAnswersTheFlag := by
  intro s
  rw [exec_getBlink]
  exact ⟨whenReady_ready s _, whenReady_uninit_of_no_fault _⟩

/-- Settles O19, by the lifecycle check (R78). -/
theorem getPwmAnswersTheLevel : Obligations.GetPwmAnswersTheLevel := by
  intro s
  rw [exec_getPwm]
  exact ⟨whenReady_ready s _, whenReady_uninit_of_no_fault _⟩

/-- Settles O18: a boolean passes validation, and the lifecycle check passes after `INIT` (R77). -/
theorem setBlinkSetsTheFlagAndSendsItsWord : Obligations.SetBlinkSetsTheFlagAndSendsItsWord := by
  intro s b hl
  rw [exec_setBlink_valid]
  exact whenReady_ready s _ hl

/-- Settles O20: an integer of 0 to 15 is the value of a level register (R17, R79). -/
theorem setPwmSetsTheLevelAndSendsItsWord : Obligations.SetPwmSetsTheLevelAndSendsItsWord := by
  intro s n hl hn
  have hlevel : (BitVec.ofNat 4 n).toNat = n := Nat.mod_eq_of_lt hn
  have haccept := exec_setPwm_valid s (BitVec.ofNat 4 n)
  rw [hlevel] at haccept
  exact haccept.trans (whenReady_ready s _ hl)

/-! ### ISSUE and DELIVER (R73) -/

/-- Settles O31: ISSUE is the step, and `State.issue` writes `INFLIGHT`, `QUEUE` and the transport port (R44, R73). -/
theorem issueHandsTheHeadToTheTransport : Obligations.IssueHandsTheHeadToTheTransport := fun _ _ _ hs hp hf hi hq =>
  step_issue hs hp hf hi hq

/-- Settles O32: DELIVER is the step, and `State.deliver` writes `RESP` and the response port (R24, R73). -/
theorem deliverGivesTheOwedResponse : Obligations.DeliverGivesTheOwedResponse := fun _ _ hs hp hf hi hq hr =>
  step_deliver hs hp hf hi hq hr

end Sys2Proof.Machine

/-! The statements of `42_controller_memory.md`: what the memory requests write, queue and answer, and when the reference chip
agrees with the shadow map. -/

namespace Sys2Proof.Machine

/-! ### The word of a row write (R35, R72, R81) -/

/-- The write word of row `o` with the columns `row` and the lookahead of `o` (R35, R49); `State.writeRow_rowWord` says that
it is the word the row-write path builds. -/
def State.rowWord (s : State) (o : Nat) (row : Row) : Word :=
  writeLayout (BitVec.ofNat 7 o) row.c0 row.c1 row.c2 row.c3 (s.lookahead o).1 (s.lookahead o).2

/-- The lookahead bits are columns 0 and 1 of the next row, or 0 at the last one (R35). -/
theorem State.rowWord_eq (s : State) (o : Nat) (row : Row) :
    s.rowWord o row = if o + 1 < s.rowCount
      then writeLayout (BitVec.ofNat 7 o) row.c0 row.c1 row.c2 row.c3 (s.memRead (o + 1)).c0 (s.memRead (o + 1)).c1
      else writeLayout (BitVec.ofNat 7 o) row.c0 row.c1 row.c2 row.c3 false false := by
  unfold State.rowWord State.lookahead
  split <;> rfl

theorem State.writeRow_rowWord (s : State) {o : Nat} (ho : o < s.rowCount) (row : Row) :
    s.writeRow o row = (s.memWrite o row, [.tx (s.rowWord o row)]) := by
  rw [s.writeRow_eq, s.encWrite_lookahead ho, ← s.rowWord_eq]
  rfl

/-- The fields of a row's word: the chip reads back the row's number, its columns and its lookahead (R49). -/
theorem State.rowWord_fields (s : State) {o : Nat} (ho : o < s.rowCount) (row : Row) :
    isWriteWord (s.rowWord o row) ∧ addrOf (s.rowWord o row) = o ∧ rowOf (s.rowWord o row) = row
      ∧ (s.rowWord o row).getLsbD 1 = (s.lookahead o).1 ∧ (s.rowWord o row).getLsbD 0 = (s.lookahead o).2 := by
  have hrows : s.rowCount ≤ 96 := s.mode.rowCount_le
  obtain ⟨hid, -, -, -, -, -, h1, h0⟩ :=
    writeLayout_fields (BitVec.ofNat 7 o) row.c0 row.c1 row.c2 row.c3 (s.lookahead o).1 (s.lookahead o).2
  exact ⟨hid, addrOf_writeLayout (by omega) _ _ _ _ _ _, rowOf_writeLayout _ _ _ _ _ _ _, h1, h0⟩

theorem State.lookahead_of_next (s : State) {o : Nat} (h : o + 1 < s.rowCount) :
    s.lookahead o = ((s.memRead (o + 1)).c0, (s.memRead (o + 1)).c1) := if_pos h

theorem State.lookahead_last (s : State) {o : Nat} (h : s.rowCount ≤ o + 1) : s.lookahead o = (false, false) :=
  if_neg (Nat.not_lt.2 h)

/-- A write of any row but the next one leaves a row's word as it was (R35). -/
theorem State.rowWord_memWrite (s : State) {o r : Nat} (h : o + 1 ≠ r) (v row : Row) :
    (s.memWrite r v).rowWord o row = s.rowWord o row := by
  simp only [State.rowWord_eq, State.memWrite_rowCount, s.memRead_memWrite_other v h]

/-! ### The row writers (R81, R82) -/

/-- All that the accepted write of an existing row does, its word named (R81). -/
theorem State.acceptRow_rowWord (s : State) {o : Nat} (ho : o < s.rowCount) (row : Row) :
    s.acceptRow o row = (s.memWrite o row).load [.tx (s.rowWord o row)] .ok := by
  rw [State.acceptRow, s.writeRow_rowWord ho]

/-- `WRITE_ADDR` with operands that pass validation, after `INIT`, is accepted (R81). -/
theorem exec_writeAddr_ready {s : State} (hl : s.life = .ready) {o : Nat} (ho : o < s.rowCount) (row : Row) :
    exec (.writeAddr (.vInt o) (.vBool row.c0) (.vBool row.c1) (.vBool row.c2) (.vBool row.c3)) s
      = .next (s.acceptRow o row) :=
  (exec_writeAddr_valid s ho row).trans (whenReady_ready s _ hl)

/-- What the accepted write of an existing row leaves: the row written, every other row, the one word queued, the response
owed, and the rest as it was (R81). -/
theorem State.acceptRow_spec (s : State) (hw : s.shadow.wf) {o : Nat} (ho : o < s.rowCount) (row : Row) :
    (s.acceptRow o row).memRead o = row ∧ (∀ r, r ≠ o → (s.acceptRow o row).memRead r = s.memRead r)
      ∧ (s.acceptRow o row).queue = [.tx (s.rowWord o row)] ∧ (s.acceptRow o row).resp = some .ok
      ∧ s.acceptRow o row = { s with
          shadow := (s.acceptRow o row).shadow
          queue := (s.acceptRow o row).queue
          resp := (s.acceptRow o row).resp } := by
  rw [s.acceptRow_rowWord ho]
  exact ⟨s.memRead_memWrite_same hw o row, fun _ hr => s.memRead_memWrite_other row hr, rfl, rfl, rfl⟩

/-- Settles O21: the operands pass validation, so the row is accepted, with its word (R81). -/
theorem writeAddrWritesTheRowAndSendsItsWord : Obligations.WriteAddrWritesTheRowAndSendsItsWord := by
  intro s o b0 b1 b2 b3 hl hw ho
  obtain ⟨hrow, hother, hqueue, hresp, hframe⟩ := s.acceptRow_spec hw ho ⟨b0, b1, b2, b3⟩
  rw [s.rowWord_eq] at hqueue
  exact ⟨_, exec_writeAddr_ready hl ho ⟨b0, b1, b2, b3⟩, hrow, hother, hqueue, hresp, hframe⟩

/-- Settles O22: the operands pass validation, so the row with column `k` replaced is accepted, with its word (R33, R82). -/
theorem writeLedChangesOneColumn : Obligations.WriteLedChangesOneColumn := by
  intro s o k v hl hw ho hk
  obtain ⟨hrow, hother, hqueue, hresp, hframe⟩ := s.acceptRow_spec hw ho ((s.memRead o).subst k v)
  refine ⟨_, (exec_writeLed_valid s ho hk v).trans (whenReady_ready s _ hl), ?_⟩
  rw [hrow]
  rw [s.rowWord_eq] at hqueue
  exact ⟨rfl, rfl, rfl, rfl, hother, hqueue, hresp, hframe⟩

/-! ### `CLEAR` (R83) -/

/-- Rows cleared in ascending order give their words with the lookahead from before the request: the next row is cleared
only after (R83, R106). -/
theorem State.clearRows_words (s : State) (l : List Nat) (h : ∀ i ∈ l, i < s.rowCount) (hl : l.Pairwise (· < ·)) :
    (s.clearRows l).2 = l.map fun i => .tx (s.rowWord i .clear) := by
  induction l generalizing s with
  | nil => rfl
  | cons i l ih =>
    obtain ⟨hlt, hl⟩ := List.pairwise_cons.1 hl
    have hkept : ∀ j ∈ l, (s.memWrite i .clear).rowWord j .clear = s.rowWord j .clear := fun j hj =>
      s.rowWord_memWrite (Nat.lt_succ_of_lt (hlt j hj)).ne' .clear .clear
    have hrest : ((s.memWrite i .clear).clearRows l).2 = l.map fun j => .tx (s.rowWord j .clear) := by
      rw [ih (s.memWrite i .clear) (fun j hj => h j (by simp [hj])) hl]
      exact List.map_congr_left fun j hj => congrArg Action.tx (hkept j hj)
    rw [State.clearRows, s.writeRow_rowWord (h i (by simp))]
    exact congrArg (Action.tx (s.rowWord i .clear) :: ·) hrest

/-- The state an accepted `CLEAR` leaves (R83). -/
def State.acceptClear (s : State) : State :=
  (s.clearRows (List.range s.rowCount)).1.load (s.clearRows (List.range s.rowCount)).2 .ok

/-- `CLEAR` after `INIT` is accepted (R83). -/
theorem exec_clear_ready {s : State} (hl : s.life = .ready) : exec .clear s = .next s.acceptClear :=
  whenReady_ready s State.acceptClear hl

/-- The words of an accepted `CLEAR`: one for each existing row, in ascending order (R83). -/
theorem State.acceptClear_queue (s : State) :
    s.acceptClear.queue = (List.range s.rowCount).map fun i => .tx (s.rowWord i .clear) :=
  s.clearRows_words _ (fun _ => List.mem_range.1) List.pairwise_lt_range

/-- An accepted `CLEAR` writes `SHADOW`, `QUEUE` and `RESP` alone (R83). -/
theorem State.acceptClear_frame (s : State) :
    s.acceptClear = { s with
      shadow := s.acceptClear.shadow
      queue := s.acceptClear.queue
      resp := s.acceptClear.resp } :=
  congrArg (·.load (s.clearRows (List.range s.rowCount)).2 .ok) (s.clearRows_frame (List.range s.rowCount))

/-- After an accepted `CLEAR` every existing row is all-false, and any other row is as it was (R83). -/
theorem State.acceptClear_memRead (s : State) (hw : s.shadow.wf) (r : Nat) :
    s.acceptClear.memRead r = if r < s.rowCount then .clear else s.memRead r := by
  have h := s.clearRows_read hw (List.range s.rowCount) r
  simp only [List.mem_range] at h
  exact h

/-- Settles O24: the words see the old rows since they are built in ascending order (R83, R106). -/
theorem clearSendsThePreClearLookahead : Obligations.ClearSendsThePreClearLookahead := by
  intro s hl hw
  refine ⟨s.acceptClear, exec_clear_ready hl, fun r hr => ?_, fun r hr => ?_, ?_, rfl, s.acceptClear_frame⟩
  · rw [s.acceptClear_memRead hw, if_pos hr]
  · rw [s.acceptClear_memRead hw, if_neg (Nat.not_lt.2 hr)]
  · simp only [s.acceptClear_queue, State.rowWord_eq]

/-! ### `READ_MAP` (R84) -/

/-- `READ_MAP`, after the lifecycle check (R84). -/
theorem exec_readMap (s : State) :
    exec .readMap s = whenReady s fun s => s.load [] (.okMap ((List.range s.rowCount).map s.memRead)) := rfl

/-- Settles O25, by the lifecycle check (R84). -/
theorem readMapAnswersEveryRow : Obligations.ReadMapAnswersEveryRow := by
  intro s
  rw [exec_readMap]
  exact ⟨whenReady_ready s _, whenReady_uninit_of_no_fault _⟩

/-- Settles O26: `READ_MAP` answers the rows that the row write left (R81, R84). -/
theorem readMapAfterWriteAddrShowsTheRow : Obligations.ReadMapAfterWriteAddrShowsTheRow := by
  intro s t o b0 b1 b2 b3 hl hw ho ht
  obtain ⟨t', ht', hrow, hother, -, -, hframe⟩ := writeAddrWritesTheRowAndSendsItsWord s o b0 b1 b2 b3 hl hw ho
  obtain rfl : t = t' := Host.Outcome.next.inj (ht.symm.trans ht')
  have hlife : t.life = .ready := by rw [hframe]; exact hl
  have hcount : t.rowCount = s.rowCount := by rw [hframe]; rfl
  have hread : ∀ r < s.rowCount, ((List.range t.rowCount).map t.memRead)[r]? = some (t.memRead r) := fun r hr => by
    simp [hcount, hr]
  refine ⟨_, (List.range t.rowCount).map t.memRead, (exec_readMap t).trans (whenReady_ready t _ hlife), rfl, ?_, ?_, ?_⟩
  · simp [hcount]
  · rw [hread o ho, hrow]
  · intro r hr hne
    rw [hread r hr, hother r hne]

/-! ### The chip and the shadow map (R45, R85, R111) -/

/-- A `Tx` that completes `ok`: the chip takes the word, by the row count in force (R44, R45). -/
theorem State.complete_tx_ok (s : State) (w : Word) (h : Handle) :
    s.complete (.tx w) (.ok h)
      = { s with inflight := none, chip := chipApply s.params.lastRowTarget s.rowCount s.chip w } := rfl

/-- Every row of the chip after the word of a row that has a next one (R45). -/
theorem State.chipApply_rowWord_next (s : State) (target : LastRowTarget) (c : Chip) {o : Nat} (ho : o + 1 < s.rowCount)
    (row : Row) (r : Nat) :
    (chipApply target s.rowCount c (s.rowWord o row)).read r =
      if r = o then row
      else if r = o + 1 then ⟨(s.memRead (o + 1)).c0, (s.memRead (o + 1)).c1, (c.read r).c2, (c.read r).c3⟩
      else c.read r := by
  obtain ⟨hid, haddr, hdata, hla0, hla1⟩ := s.rowWord_fields (Nat.lt_of_succ_lt ho) row
  rw [s.lookahead_of_next ho] at hla0 hla1
  rw [chipApply_write_read target c hid (by rwa [haddr]), haddr, hdata, hla0, hla1]

/-- Under the target `none`, a chip that agrees with the rows takes the word of a row write as the shadow map takes the
write: the pre-stage sets columns that agreed already (R85). -/
theorem State.chipApply_rowWord_agrees (s : State) (hw : s.shadow.wf) (ha : s.Agrees) {o : Nat} (ho : o < s.rowCount)
    (row : Row) {r : Nat} (hr : r < s.rowCount) :
    (chipApply .none s.rowCount s.chip (s.rowWord o row)).read r = (s.memWrite o row).memRead r := by
  rw [s.memRead_memWrite hw, ← ha r hr]
  by_cases hnext : o + 1 < s.rowCount
  · rw [s.chipApply_rowWord_next .none s.chip hnext, ← ha (o + 1) hnext]
    by_cases hstaged : r = o + 1
    · simp [hstaged]
    · rw [if_neg hstaged]
  · obtain ⟨hid, haddr, hdata, -, -⟩ := s.rowWord_fields ho row
    rw [chipApply_last_none s.chip hid (by omega), haddr, hdata, Chip.read_write]

/-- A row writer that owes `Ok` wrote a row: faulting and answering `INVALID_ARGUMENT` leave `RESP` as it was (R87, R91). -/
theorem exec_rowWriter_accepted {s t : State} {i : Instr}
    (hi : (∃ o d0 d1 d2 d3, i = .writeAddr o d0 d1 d2 d3) ∨ ∃ o k v, i = .writeLed o k v) (hs : s.resp = none)
    (ht : exec i s = .next t) (hr : t.resp = some .ok) : ∃ o row, o < s.rowCount ∧ t = s.acceptRow o row := by
  cases exec_cases ht with
  | row o row _ ho => exact ⟨o, row, ho, rfl⟩
  | sampled | notReady | reinit | invalid => simp [hs] at hr
  | init _ _ h | getBlink h | setBlink _ h | getPwm h | setPwm _ h | clear h | readMap h => simp [h] at hi

/-- Settles O57: an accepted row write queues its row's word, which the agreeing chip takes as the shadow map took the
write (R85). -/
theorem overlappingWritesKeepTheChipInAgreement : Obligations.OverlappingWritesKeepTheChipInAgreement := by
  intro s t i _ hw htarget hresp hagree hi ht hok
  obtain ⟨o, row, ho, rfl⟩ := exec_rowWriter_accepted hi hresp ht hok
  rw [s.acceptRow_rowWord ho]
  refine ⟨s.rowWord o row, rfl, fun h r (hr : r < s.rowCount) => ?_⟩
  have htaken := s.chipApply_rowWord_agrees hw hagree ho row hr
  rw [← htarget] at htaken
  rw [State.complete_tx_ok]
  exact htaken

/-- Row 0 of the chip after the word of the last row, under each target: nothing is said of its first two columns under
`unknown`, and under `row0` they are cleared (R45, R111). -/
theorem State.chipApply_lastRowWord_zero (s : State) (target : LastRowTarget) (c : Chip) (row : Row) :
    let d := chipApply target s.rowCount c (s.rowWord (s.rowCount - 1) row)
    (d.read 0).c2 = (c.read 0).c2 ∧ (d.read 0).c3 = (c.read 0).c3 ∧ (target = .none → d.read 0 = c.read 0)
      ∧ (target = .row0 → (d.read 0).c0 = false ∧ (d.read 0).c1 = false) := by
  have hrows : s.rowCount = 64 ∨ s.rowCount = 96 := s.mode.rowCount_cases
  obtain ⟨hid, haddr, -, hla0, hla1⟩ := s.rowWord_fields (o := s.rowCount - 1) (by omega) row
  rw [s.lookahead_last (by omega)] at hla0 hla1
  have h := chipApply_last_read_zero target c hid (n := s.rowCount) (by omega) (by omega)
  rwa [hla0, hla1] at h

theorem txWords_map_tx (l : List Nat) (f : Nat → Word) : txWords (l.map fun i => .tx (f i)) = l.map f := by
  induction l with
  | nil => rfl
  | cons i l ih => exact congrArg (f i :: ·) ih

/-- The chip once the words of the rows 0 to `k-1` of a `CLEAR` have completed `ok`; `State.clearedChip_eq_foldl` says that all
of them are the words that an accepted `CLEAR` queues (R45, R83). -/
def State.clearedChip (s : State) (target : LastRowTarget) (c : Chip) (k : Nat) : Chip :=
  ((List.range k).map (s.rowWord · .clear)).foldl (chipApply target s.rowCount) c

theorem State.clearedChip_eq_foldl (s : State) (target : LastRowTarget) (c : Chip) :
    s.clearedChip target c s.rowCount = (txWords s.acceptClear.queue).foldl (chipApply target s.rowCount) c := by
  rw [State.clearedChip, s.acceptClear_queue, txWords_map_tx]

theorem State.clearedChip_succ (s : State) (target : LastRowTarget) (c : Chip) (k : Nat) :
    s.clearedChip target c (k + 1)
      = chipApply target s.rowCount (s.clearedChip target c k) (s.rowWord k .clear) := by
  simp [State.clearedChip, List.range_succ]

/-- The last row's word comes last (R83). -/
theorem State.clearedChip_last (s : State) (target : LastRowTarget) (c : Chip) :
    s.clearedChip target c s.rowCount = chipApply target s.rowCount (s.clearedChip target c (s.rowCount - 1))
      (s.rowWord (s.rowCount - 1) .clear) := by
  have hpos : 0 < s.rowCount := s.mode.rowCount_pos
  have h := s.clearedChip_succ target c (s.rowCount - 1)
  rwa [Nat.sub_add_cancel hpos] at h

/-- Before the last word every row whose word has come is all-false: a word's pre-stage touches only the row of the next word
(R83, R85). -/
theorem State.clearedChip_read_below (s : State) (target : LastRowTarget) (c : Chip) {k : Nat} (hk : k < s.rowCount) {r : Nat}
    (hr : r < k) : (s.clearedChip target c k).read r = .clear := by
  induction k with
  | zero => omega
  | succ k ih =>
    rw [s.clearedChip_succ, s.chipApply_rowWord_next target _ hk]
    by_cases hrow : r = k
    · rw [if_pos hrow]
    · rw [if_neg hrow, if_neg (by omega), ih (by omega) (by omega)]

/-- Every row but row 0 is all-false on the chip after a `CLEAR` (R85). -/
theorem State.clearedChip_read_other (s : State) (target : LastRowTarget) (c : Chip) {r : Nat} (hr : r < s.rowCount)
    (h0 : r ≠ 0) : (s.clearedChip target c s.rowCount).read r = .clear := by
  obtain ⟨hid, haddr, hdata, -, -⟩ := s.rowWord_fields (o := s.rowCount - 1) (by omega) .clear
  rw [s.clearedChip_last, chipApply_last_read_other target _ hid (by omega) h0, haddr, hdata]
  by_cases hlast : r = s.rowCount - 1
  · rw [if_pos hlast]
  · rw [if_neg hlast, s.clearedChip_read_below target c (by omega) (by omega)]

/-- Row 0 of the chip after a `CLEAR`: only under `unknown` does the last word leave its first two columns open (R85, R111). -/
theorem State.clearedChip_read_zero (s : State) (target : LastRowTarget) (c : Chip) :
    let row := (s.clearedChip target c s.rowCount).read 0
    row.c2 = false ∧ row.c3 = false ∧ (target ≠ .unknown → row = .clear) := by
  have hrows : s.rowCount = 64 ∨ s.rowCount = 96 := s.mode.rowCount_cases
  have hbelow := s.clearedChip_read_below target c (k := s.rowCount - 1) (r := 0) (by omega) (by omega)
  obtain ⟨h2, h3, hnone, hrow0⟩ := s.chipApply_lastRowWord_zero target (s.clearedChip target c (s.rowCount - 1)) .clear
  rw [← s.clearedChip_last] at h2 h3 hnone hrow0
  rw [hbelow] at h2 h3 hnone
  intro row
  refine ⟨h2, h3, fun htarget => ?_⟩
  cases target with
  | none => exact hnone rfl
  | row0 =>
    obtain ⟨h0, h1⟩ := hrow0 rfl
    exact (Row.mk.injEq ..).mpr ⟨h0, h1, h2, h3⟩
  | unknown => exact absurd rfl htarget

/-- Every existing row of the chip after a `CLEAR`, but row 0 under `unknown`, is all-false (R85). -/
theorem State.clearedChip_read (s : State) (target : LastRowTarget) (c : Chip) {r : Nat} (hr : r < s.rowCount)
    (hor : r ≠ 0 ∨ target ≠ .unknown) : (s.clearedChip target c s.rowCount).read r = .clear := by
  obtain ⟨-, -, hzero⟩ := s.clearedChip_read_zero target c
  by_cases h0 : r = 0
  · subst h0
    exact hzero (hor.resolve_left (not_not_intro rfl))
  · exact s.clearedChip_read_other target c hr h0

/-- Settles O58: each word clears its own row, and only the last word can touch a row cleared before it, row 0 (R85). -/
theorem clearEstablishesAgreement : Obligations.ClearEstablishesAgreement := by
  intro s t c d hl ht hd
  obtain rfl : s.acceptClear = t := Host.Outcome.next.inj ((exec_clear_ready hl).symm.trans ht)
  rw [← s.clearedChip_eq_foldl] at hd
  subst hd
  obtain ⟨h2, h3, -⟩ := s.clearedChip_read_zero s.params.lastRowTarget c
  refine ⟨fun _ hr hor => s.clearedChip_read _ c hr hor, h2, h3, fun hw htarget r hr => ?_⟩
  have hrow : r < s.rowCount := by
    rw [s.acceptClear_frame] at hr
    exact hr
  have hshadow := s.acceptClear_memRead hw r
  rw [if_pos hrow] at hshadow
  exact (s.clearedChip_read _ c hrow (.inr htarget)).trans hshadow.symm

/-- Settles O59: the last row's word has no lookahead, so the pre-stage clears the chip's row 0, which the shadow map keeps,
row 0 not being the last one (R85, R111). -/
theorem lastRowWriteClearsChipRow0UnderRow0 : Obligations.LastRowWriteClearsChipRow0UnderRow0 := by
  intro s t d0 d1 d2 d3 w h hl htarget ht hqueue
  have hrows : s.rowCount = 64 ∨ s.rowCount = 96 := s.mode.rowCount_cases
  have hlast : s.rowCount - 1 < s.rowCount := by omega
  have hexec := exec_writeAddr_ready hl hlast ⟨d0, d1, d2, d3⟩
  obtain rfl : s.acceptRow (s.rowCount - 1) ⟨d0, d1, d2, d3⟩ = t := Host.Outcome.next.inj (hexec.symm.trans ht)
  rw [s.acceptRow_rowWord hlast] at hqueue ⊢
  obtain rfl : s.rowWord (s.rowCount - 1) ⟨d0, d1, d2, d3⟩ = w := by simpa using hqueue
  obtain ⟨-, -, -, hrow0⟩ := s.chipApply_lastRowWord_zero s.params.lastRowTarget s.chip ⟨d0, d1, d2, d3⟩
  rw [State.complete_tx_ok]
  exact ⟨s.memRead_memWrite_other ⟨d0, d1, d2, d3⟩ (by omega), hrow0 htarget⟩

end Sys2Proof.Machine

/-! The statements of `60_exceptions.md`: which requests are refused, what faults, what a failed action leaves, and how a
faulted or a stuck block goes on. -/

namespace Sys2Proof.Machine

/-! ### `INVALID_ARGUMENT` (R87, R88) -/

/-- An integer operand of `0 .. bound` fails validation if it is no such integer, the bound written as R87 writes it. -/
theorem indexOperand_succ_eq_none {bound : Nat} {v : Val} :
    indexOperand (bound + 1) v = none ↔ ∀ n : Int, 0 ≤ n → n ≤ bound → v ≠ .vInt n := by
  simp only [indexOperand_eq_none, Nat.cast_succ, Int.lt_add_one_iff]

theorem levelOperand_eq_none {v : Val} : levelOperand v = none ↔ ∀ n : Int, 0 ≤ n → n ≤ 15 → v ≠ .vInt n :=
  Option.map_eq_none_iff.trans indexOperand_succ_eq_none

theorem ledOperand_eq_none {v : Val} : ledOperand v = none ↔ ∀ n : Int, 0 ≤ n → n ≤ 3 → v ≠ .vInt n :=
  indexOperand_succ_eq_none

/-- A request in its place with one of the causes of R87 fails validation (R88). -/
theorem exec_of_badOperand {s : State} {i : Instr} (hl : s.admits i) (hbad : i.hasBadOperand s.rowCount) :
    exec i s = .next s.respondInvalid := by
  cases i with
  | init m => simp [exec, execInit, show s.life = .uninit from hl, modeOperand_eq_none.2 hbad]
  | setBlink enabled => simp [exec, execSetBlink, show s.life = .ready from hl, boolOperand_eq_none.2 hbad]
  | setPwm level => simp [exec, execSetPwm, show s.life = .ready from hl, levelOperand_eq_none.2 hbad]
  | writeAddr offset d0 d1 d2 d3 =>
    have hready : s.life = .ready := hl
    rcases hbad with ho | hd
    · simp [exec, execWriteAddr, hready, indexOperand_eq_none.2 ho]
    · simp [exec, execWriteAddr, hready, rowOperand_eq_none.2 hd]
  | writeLed offset ledIndex value =>
    have hready : s.life = .ready := hl
    rcases hbad with ho | hk | hv
    · simp [exec, execWriteLed, hready, indexOperand_eq_none.2 ho]
    · simp [exec, execWriteLed, hready, ledOperand_eq_none.2 hk]
    · simp [exec, execWriteLed, hready, boolOperand_eq_none.2 hv]
  | _ => exact hbad.elim

/-- A request in its place with none of the causes of R87 is accepted: nothing is delivered yet, and a response other than
`Err(INVALID_ARGUMENT)` is owed. -/
theorem exec_of_goodOperands {s : State} {i : Instr} (hreq : i.isEncoderCall = false) (hl : s.admits i)
    (hgood : ¬ i.hasBadOperand s.rowCount) :
    ∃ t, exec i s = .next t ∧ t.log = s.log ∧ t.resp ≠ none ∧ t.resp ≠ some .invalidArgument := by
  cases i with
  | init m =>
    obtain ⟨k, hm⟩ := Option.ne_none_iff_exists'.1 (mt modeOperand_eq_none.1 hgood)
    exact ⟨_, exec_init_valid hl hm, rfl, nofun, nofun⟩
  | getBlink => exact ⟨_, (getBlinkAnswersTheFlag s).1 hl, rfl, nofun, nofun⟩
  | setBlink enabled =>
    obtain ⟨b, hb⟩ := Option.ne_none_iff_exists'.1 (mt boolOperand_eq_none.1 hgood)
    obtain rfl := boolOperand_eq_some.1 hb
    exact ⟨_, setBlinkSetsTheFlagAndSendsItsWord s b hl, rfl, nofun, nofun⟩
  | getPwm => exact ⟨_, (getPwmAnswersTheLevel s).1 hl, rfl, nofun, nofun⟩
  | setPwm level =>
    obtain ⟨n, hn⟩ := Option.ne_none_iff_exists'.1 (mt indexOperand_succ_eq_none.1 hgood)
    obtain ⟨rfl, hlt⟩ := indexOperand_eq_some.1 hn
    exact ⟨_, setPwmSetsTheLevelAndSendsItsWord s n hl hlt, rfl, nofun, nofun⟩
  | writeAddr offset d0 d1 d2 d3 =>
    obtain ⟨hoffset, hdata⟩ := not_or.1 hgood
    obtain ⟨o, ho⟩ := Option.ne_none_iff_exists'.1 (mt indexOperand_eq_none.1 hoffset)
    obtain ⟨row, hrow⟩ := Option.ne_none_iff_exists'.1 (mt rowOperand_eq_none.1 hdata)
    obtain ⟨rfl, hlt⟩ := indexOperand_eq_some.1 ho
    obtain ⟨rfl, rfl, rfl, rfl⟩ := rowOperand_eq_some.1 hrow
    exact ⟨_, exec_writeAddr_ready hl hlt row, rfl, nofun, nofun⟩
  | writeLed offset ledIndex value =>
    obtain ⟨hoffset, hrest⟩ := not_or.1 hgood
    obtain ⟨hled, hvalue⟩ := not_or.1 hrest
    obtain ⟨o, ho⟩ := Option.ne_none_iff_exists'.1 (mt indexOperand_eq_none.1 hoffset)
    obtain ⟨k, hk⟩ := Option.ne_none_iff_exists'.1 (mt indexOperand_succ_eq_none.1 hled)
    obtain ⟨b, hb⟩ := Option.ne_none_iff_exists'.1 (mt boolOperand_eq_none.1 hvalue)
    obtain ⟨rfl, hlt⟩ := indexOperand_eq_some.1 ho
    obtain ⟨rfl, hk4⟩ := indexOperand_eq_some.1 hk
    obtain rfl := boolOperand_eq_some.1 hb
    exact ⟨_, (exec_writeLed_valid s hlt hk4 b).trans (whenReady_ready s _ hl), rfl, nofun, nofun⟩
  | clear => exact ⟨_, exec_clear_ready hl, by rw [s.acceptClear_frame], nofun, nofun⟩
  | readMap => exact ⟨_, (readMapAnswersEveryRow s).1 hl, rfl, nofun, nofun⟩
  | _ => cases hreq

/-- Settles O27: validation fails exactly on the causes R87 lists, and a request that passes it is accepted. -/
theorem badOperandsAreRefusedAndChangeNothing : Obligations.BadOperandsAreRefusedAndChangeNothing := fun _ _ hreq hl =>
  ⟨exec_of_badOperand hl, exec_of_goodOperands hreq hl⟩

/-! ### The faults of an ACCEPT step (R91, R92) and the codes (R95) -/

/-- A request other than `INIT` that comes before it stops at the lifecycle check (R73, R91). -/
theorem exec_before_init {s : State} {i : Instr} (hreq : i.isEncoderCall = false) (hn : ∀ m, i ≠ .init m)
    (hl : s.life = .uninit) : exec i s = .next (s.takeFault .notReady) := by
  cases i with
  | init m => exact absurd rfl (hn m)
  | getBlink | setBlink | getPwm | setPwm | writeAddr | writeLed | clear | readMap => exact if_pos hl
  | _ => cases hreq

/-- Settles O28: the lifecycle check comes before validation, so the operands do not matter (R91, R96). -/
theorem requestsBeforeInitFault : Obligations.RequestsBeforeInitFault := by
  intro s i hreq hn hl hf
  rw [exec_before_init hreq hn hl, s.takeFault_of_none _ hf]

/-- Settles O29: `INIT`'s lifecycle check comes before validation, so its operand does not matter (R92, R96). -/
theorem secondInitFaults : Obligations.SecondInitFaults := by
  intro s m hl hf
  rw [exec, execInit, if_pos hl, s.takeFault_of_none _ hf]

/-- Settles O30: each code is listed constructor by constructor (R12, R95). -/
theorem codesAreAsListed : Obligations.CodesAreAsListed :=
  ⟨rfl, fun _ => rfl, fun _ => rfl, fun _ => rfl, rfl, fun _ => rfl, rfl, rfl, rfl, rfl, rfl, rfl, rfl, rfl, rfl⟩

/-! ### Actions that fail (R90, R94) -/

/-- Settles O34, by the action: COMPLETE is the step, and the fault it raises is the first one (R93, R94). -/
theorem failedOpenOrSetClockFaults : Obligations.FailedOpenOrSetClockFaults := by
  intro s a rest hs hp hf hi hne ht
  rw [step_complete hs hp hi ht]
  cases a with
  | openDev dev => exact congrArg Host.Outcome.next (State.takeFault_of_none _ .openFailed hf)
  | setClock hz => exact congrArg Host.Outcome.next (State.takeFault_of_none _ .openFailed hf)
  | tx w => exact absurd rfl (hne w)

/-- Settles O35: COMPLETE is the step, and it leaves the block ready for ISSUE or DELIVER, `QUEUE` and `RESP` being as they
were (R73, R90). -/
theorem failedTxIsReportedAndTheCycleGoesOn : Obligations.FailedTxIsReportedAndTheCycleGoesOn := by
  intro s w rest hs hp hf hi ht
  refine ⟨_, step_complete hs hp hi ht, rfl, fun a more hq => ?_, fun r hq hr => ?_⟩
  · exact step_issue hs hp hf rfl hq
  · exact step_deliver hs hp hf rfl hq hr

/-! ### The faulted block (R20, R93) -/

/-- What a step of a faulted block does to the sequencer: nothing, but that the action in flight may complete (R93). -/
theorem step_faulted_sequencer {s t : State} (hf : s.fault ≠ .none) (ht : step s = .next t)
    (hreset : ∀ rest, s.schedule ≠ .reset :: rest) :
    t.fault = s.fault ∧ t.queue = s.queue ∧ t.resp = s.resp
      ∧ (t.inflight = s.inflight ∧ t.log = s.log
        ∨ t.inflight = none ∧ (t.log = s.log ∨ ∃ w, s.inflight = some (.tx w) ∧ t.log = s.log ++ [.report w])) := by
  cases step_cases ht with
  | wait => exact ⟨rfl, rfl, rfl, .inl ⟨rfl, rfl⟩⟩
  | run i _ hi t ht =>
    obtain ⟨r, rfl⟩ := exec_call ht (hi.resolve_right fun ⟨_, hnone⟩ => hf hnone)
    exact ⟨rfl, rfl, rfl, .inl ⟨rfl, rfl⟩⟩
  | issue a rest hnone => exact absurd hnone hf
  | deliver r hnone => exact absurd hnone hf
  | complete a c rest hi =>
    obtain ⟨-, -, hin, hq, hr, -, -, -, -, -, -, -, hlog, hkeep, -⟩ :=
      State.complete_frame { s.popped with transport := rest } a c
    refine ⟨(hkeep hf).1, hq, hr, .inr ⟨hin, hlog.imp id ?_⟩⟩
    rintro ⟨w, rfl, hreport⟩
    exact ⟨w, hi, hreport⟩
  | present i rest => exact ⟨rfl, rfl, rfl, .inl ⟨rfl, rfl⟩⟩
  | stale n _ _ t ht =>
    obtain ⟨_, _, _, rfl⟩ := State.staleStep_frame ht
    exact ⟨rfl, rfl, rfl, .inl ⟨rfl, rfl⟩⟩
  | reset m hm => exact absurd hm (hreset m)

/-- Settles O38: registers, `HANDLE` and the port change only in ways that need `FAULT = NONE`, or by a reset; the rest is
`step_faulted_sequencer` (R20, R93). -/
theorem faultIsStickyAndStopsTheBlock : Obligations.FaultIsStickyAndStopsTheBlock := by
  intro s t hf ht hreset
  obtain ⟨hfault, hqueue, hresp, hports⟩ := step_faulted_sequencer hf ht hreset
  have hregisters : t.life = s.life ∧ t.mode = s.mode ∧ t.shadow = s.shadow ∧ t.blink = s.blink ∧ t.pwm = s.pwm := by
    rcases step_registers ht with hsame | ⟨_, -, -, -, hnone, -⟩ | ⟨⟨rest, hr⟩, -⟩
    · exact hsame
    · exact absurd hnone hf
    · exact absurd hr (hreset rest)
  have hhandle : t.handle = s.handle := by
    by_contra hne
    rcases handleChangesOnlyWhenOpenCompletes s t ht hne with ⟨rest, hr⟩ | ⟨_, _, -, -, hnone, -⟩
    · exact hreset rest hr
    · exact hf hnone
  have hport (i : Instr) (hp : s.port = some i) (hreq : i.isEncoderCall = false) : t.port = some i := by
    rcases requestsAreHeldUntilTheBlockIsIdle s t i hp hreq ht with ⟨-, hnone, -⟩ | hheld | ⟨rest, hr⟩
    · exact absurd hnone hf
    · exact hheld
    · exact absurd hr (hreset rest)
  obtain ⟨hlife, hmode, hshadow, hblink, hpwm⟩ := hregisters
  exact ⟨hfault, hlife, hmode, hshadow, hblink, hpwm, hhandle, hqueue, hresp, hport, hports⟩

/-- A faulted block takes no step, unless a bench's call is at the port (R93). -/
theorem blockMove_of_faulted {s : State} (hp : s.noCall) (hf : s.fault ≠ .none) : blockMove s = none := by
  rw [blockMove, State.blockStep_noCall hp, State.cycleStep, if_pos (.inl hf)]

/-- With no action in flight, or no completion to come, the transport does not move (R44, R100). -/
theorem State.transportStep_eq_none {s : State} (h : s.inflight = none ∨ s.transport = []) : s.transportStep = none := by
  unfold State.transportStep
  rcases h with h | h <;> simp [h]

/-- With the port taken, or nothing left to present, the requester does not move (R23). -/
theorem State.requesterStep_eq_none {s : State} (h : s.port ≠ none ∨ s.requester = []) : s.requesterStep = none := by
  unfold State.requesterStep
  rcases h with h | h
  · obtain ⟨i, hi⟩ := Option.ne_none_iff_exists'.1 h
    simp [hi]
  · simp [h]

/-- Settles O39: neither the block nor an agent around it moves, so the step answers the stop of `FAULT`'s value (R93). -/
theorem faultedRunsFail : Obligations.FaultedRunsFail := by
  intro s hs hp hi hr
  have stops {c : FaultCode} {f : Fault} (hc : s.fault = c) (hne : c ≠ .none) (hstop : c.stop = some f) :
      step s = .fault f := by
    have hb : blockMove s = none := blockMove_of_faulted hp (hc ▸ hne)
    rw [step_unscheduled hs, defaultMove, hb, State.transportStep_eq_none hi, State.requesterStep_eq_none hr, hc, hstop]
  exact ⟨fun h => stops h nofun rfl, fun h => stops h nofun rfl, fun h => stops h nofun rfl⟩

/-! ### The transport that completes nothing (R100) -/

/-- A move of the block answers a next state. -/
theorem blockMove_next {s : State} {o : Host.Outcome State Fault Refusal} (h : blockMove s = some o) :
    ∃ t, o = .next t := by
  unfold blockMove at h
  split at h
  · cases h
  · obtain ⟨t, ht, -⟩ := exec_next _ _
    exact ⟨t, (Option.some.inj h).symm.trans ht⟩
  · exact ⟨_, (Option.some.inj h).symm⟩
  · exact ⟨_, (Option.some.inj h).symm⟩

/-- A step of a block that has not faulted answers a next state, whoever moves (R93). -/
theorem step_next_of_no_fault {s : State} (hf : s.fault = .none) : ∃ t, step s = .next t := by
  cases hs : s.schedule with
  | nil =>
    rw [step_unscheduled hs, defaultMove]
    cases hb : blockMove s with
    | some o => exact blockMove_next hb
    | none =>
      cases s.transportStep with
      | some t => exact ⟨t, rfl⟩
      | none =>
        cases s.requesterStep with
        | some t => exact ⟨t, rfl⟩
        | none => exact ⟨s, by rw [hf]; rfl⟩
  | cons m rest =>
    rw [step_scheduled hs]
    cases m with
    | block =>
      rw [runMove]
      cases hb : blockMove { s with schedule := rest } with
      | some o => exact blockMove_next hb
      | none => exact ⟨_, rfl⟩
    | transport | requester | stale | reset => exact ⟨_, rfl⟩

/-- Settles O40, by the mover of the step: ACCEPT, ISSUE and DELIVER wait for `INFLIGHT = none`, no action completes, and what
is left is a turn that nothing uses or the requester's (R41, R100). -/
theorem stuckTransportBlocksTheBlock : Obligations.StuckTransportBlocksTheBlock := by
  intro s a ha htr hp hf hreset
  obtain ⟨t, ht⟩ := step_next_of_no_fault hf
  refine ⟨t, ht, ?_⟩
  cases step_cases ht with
  | wait => exact ⟨rfl, fun _ h => h⟩
  | run i hi hrun =>
    rcases hrun with hcall | ⟨⟨-, hnone, -⟩, -⟩
    · exact absurd hcall (by simp [hp i hi])
    · simp [ha] at hnone
  | issue b rest _ hnone => simp [ha] at hnone
  | deliver r _ hnone => simp [ha] at hnone
  | complete b c rest _ hc => simp [htr] at hc
  | present i rest hnone => exact ⟨rfl, fun _ h => by simp [hnone] at h⟩
  | stale n _ _ t hstale =>
    obtain ⟨_, _, _, -, hc, -⟩ := State.staleStep_cases hstale
    simp [State.popped, htr] at hc
  | reset m hm => exact absurd hm (hreset m)

end Sys2Proof.Machine

/-! The statements of `70_reset_and_hazards.md`: what the reset input leaves, what comes of the actions it abandons, and that
the registers a reset leaves without a value show nowhere. -/

namespace Sys2Proof.Machine

/-! ### The state after reset (R102, R103) -/

/-- Settles O44: `State.resetWith` writes each value out (R102, R103). -/
theorem resetValuesOfTheSpec : Obligations.ResetValuesOfTheSpec := fun _ => ⟨rfl, rfl, rfl, rfl, rfl, rfl, rfl⟩

/-- Settles O45: the invariant was shown of the state after reset where its steps are shown to keep it (R30, R102). -/
theorem resetMeetsTheInvariant : Obligations.ResetMeetsTheInvariant := State.resetWith_inv

/-! ### The reset input and the actions it abandons (R45, R102) -/

/-- A step whose turn is the completion of an abandoned action leaves all but the turn, the abandoned actions, the
completions to come and the chip as it was, whether there is such an action or not (R102). -/
theorem step_stale_frame {s : State} {n : Nat} {rest : List Move} (hs : s.schedule = .stale n :: rest) :
    ∃ left more chip, step s = .next { s with schedule := rest, abandoned := left, transport := more, chip := chip } := by
  rw [step_scheduled hs, runMove]
  cases hstep : State.staleStep n { s with schedule := rest } with
  | none => exact ⟨_, _, _, rfl⟩
  | some t =>
    obtain ⟨left, more, chip, rfl⟩ := State.staleStep_frame hstep
    exact ⟨left, more, chip, rfl⟩

/-- Settles O42: the reset's turn runs `State.applyReset`, whose fields are as stated, and an abandoned completion's has the
frame of `step_stale_frame` (R102, R103). -/
theorem resetInputEntersTheResetState : Obligations.ResetInputEntersTheResetState := by
  refine ⟨fun s rest hs => ?_, fun s n rest hs => ?_⟩
  · exact ⟨_, step_scheduled hs, rfl, rfl, rfl, rfl, rfl, rfl, rfl, rfl, rfl⟩
  · obtain ⟨left, more, chip, hstep⟩ := step_stale_frame hs
    exact ⟨_, hstep, rfl⟩

/-- The completion of an abandoned action that is there, as the transport's next completion says (R45, R102). -/
theorem State.staleStep_of_abandoned {s : State} {n : Nat} {a : Abandoned} {c : Completion} {more : List Completion}
    (ha : s.abandoned[n]? = some a) (hc : s.transport = c :: more) :
    s.staleStep n = some { s with
      abandoned := s.abandoned.eraseIdx n
      transport := more
      chip := s.chip.completed s.params.lastRowTarget a.rowCount a.action c } := by
  simp only [State.staleStep, ha, hc]

/-- Settles O43, by the action: its turn completes it, and what the chip takes depends on the action and on how it
completes (R45, R102). -/
theorem abandonedCompletionsReachOnlyTheChip : Obligations.AbandonedCompletionsReachOnlyTheChip := by
  intro s k a n c turns more hs ha hc
  have hstale := State.staleStep_of_abandoned (s := { s with schedule := turns }) ha hc
  rw [step_scheduled hs, runMove, hstale, List.eraseIdx_eq_take_drop_succ]
  cases a with
  | openDev dev => rfl
  | setClock hz => rfl
  | tx w => cases c <;> rfl

/-! ### The registers without a value (R103) -/

/-- Two states before `INIT`, alike but for the registers that hold no value then (R103). -/
def State.AlikeBeforeInit (s t : State) : Prop := s.life = .uninit ∧ s.SameButUnset t

/-- No bench has a call of `ENC_WRITE` at the port, the one operation that reads `MODE` before `INIT` (R72). -/
abbrev State.noEncWrite (s : State) : Prop :=
  ∀ o d0 d1 d2 d3 la0 la1, s.port ≠ some (.write o d0 d1 d2 d3 la0 la1)

/-- What a step of two states alike before `INIT` may answer: states still so alike; or, an `INIT` being accepted in both,
states that differ in `HANDLE` alone; or one and the same stop. -/
inductive AlikeOutcomes : Host.Outcome State Fault Refusal → Host.Outcome State Fault Refusal → Prop where
  | before {s t : State} (h : s.AlikeBeforeInit t) : AlikeOutcomes (.next s) (.next t)
  | accepted (t : State) (k : Handle) : AlikeOutcomes (.next { t with handle := k }) (.next t)
  | stop (f : Fault) : AlikeOutcomes (.fault f) (.fault f)

/-- The one step that an idle block takes is to run the operation at the port (R73). -/
theorem State.blockStep_of_idle {s : State} {b : BlockStep} (hi : s.idle) (hb : s.blockStep = some b) :
    ∃ i, b = .run i ∧ s.port = some i := by
  obtain ⟨hq, -, hr⟩ := hi
  cases b with
  | run i => exact ⟨i, rfl, (State.blockStep_run hb).1⟩
  | issue a rest =>
    obtain ⟨-, -, -, ⟨_, _, -, hcons⟩ | ⟨_, hne, -⟩⟩ := State.blockStep_cycle hb (by simp)
    · simp [hq] at hcons
    · cases hne
  | deliver r =>
    obtain ⟨-, -, -, ⟨_, _, hne, -⟩ | ⟨_, -, -, hsome⟩⟩ := State.blockStep_cycle hb (by simp)
    · cases hne
    · simp [hr] at hsome

/-- Related results are related where they stand in place of two related defaults. -/
theorem optionRel_getD {α β : Type} {R : α → β → Prop} {x : Option α} {y : Option β} {a : α} {b : β}
    (h : Option.Rel R x y) (hab : R a b) : R (x.getD a) (y.getD b) := by
  cases h with
  | some h => exact h
  | none => exact hab

section
variable {s t : State} (h : s.AlikeBeforeInit t)
include h

/-- The first of two such states is the second with other values in the registers that hold none. -/
theorem State.AlikeBeforeInit.eq_update :
    t.life = .uninit ∧ ∃ m sh b p k, s = { t with mode := m, shadow := sh, blink := b, pwm := p, handle := k } := by
  obtain ⟨hl, hsame⟩ := h
  unfold State.SameButUnset at hsame
  rw [hsame] at hl
  exact ⟨hl, _, _, _, _, _, hsame⟩

/-- Faults are taken alike: `FAULT` has a value before `INIT` (R103). -/
theorem State.AlikeBeforeInit.takeFault (c : FaultCode) : (s.takeFault c).AlikeBeforeInit (t.takeFault c) := by
  obtain ⟨hl, _, _, _, _, _, rfl⟩ := h.eq_update
  refine ⟨(State.takeFault_life _ c).trans hl, ?_⟩
  unfold State.takeFault
  split <;> rfl

/-- Such states stay alike as the turn at hand comes off the schedule of both. -/
theorem State.AlikeBeforeInit.with_schedule (rest : List Move) :
    { s with schedule := rest }.AlikeBeforeInit { t with schedule := rest } := by
  obtain ⟨hl, _, _, _, _, _, rfl⟩ := h.eq_update
  exact ⟨hl, rfl⟩

/-- An operation other than a bench's `ENC_WRITE` reads none of these registers before `INIT`, and an accepted `INIT` writes
them all but `HANDLE` (R74, R91). -/
theorem exec_alike {i : Instr} (hw : ∀ o d0 d1 d2 d3 la0 la1, i ≠ .write o d0 d1 d2 d3 la0 la1) :
    AlikeOutcomes (exec i s) (exec i t) := by
  obtain ⟨ht, _, _, _, _, k, hs⟩ := h.eq_update
  have notReady {j : Instr} (hreq : j.isEncoderCall = false) (hn : ∀ m, j ≠ .init m) :
      AlikeOutcomes (exec j s) (exec j t) := by
    rw [exec_before_init hreq hn h.1, exec_before_init hreq hn ht]
    exact .before (h.takeFault .notReady)
  cases i with
  | write => exact absurd rfl (hw _ _ _ _ _ _ _)
  | sysDis | sysEn | ledOn | ledOff | blinkOn | blinkOff | master | mode | pwm =>
    subst hs
    exact .before ⟨ht, rfl⟩
  | init mode =>
    cases hm : modeOperand mode with
    | none =>
      have hbad := modeOperand_eq_none.1 hm
      rw [exec_of_badOperand (s := s) (i := .init mode) h.1 hbad, exec_of_badOperand (s := t) (i := .init mode) ht hbad]
      subst hs
      exact .before ⟨ht, rfl⟩
    | some m =>
      rw [exec_init_valid h.1 hm, exec_init_valid ht hm]
      subst hs
      exact .accepted (t.acceptInit m) k
  | getBlink | setBlink | getPwm | setPwm | writeAddr | writeLed | clear | readMap =>
    exact notReady rfl nofun

/-- The requester's step is the same in both states: it looks at the port and at its own list (R23). -/
theorem State.AlikeBeforeInit.requesterStep : Option.Rel State.AlikeBeforeInit s.requesterStep t.requesterStep := by
  obtain ⟨hl, _, _, _, _, _, rfl⟩ := h.eq_update
  cases hp : t.port with
  | some i => simp only [State.requesterStep, hp, Option.Rel.none]
  | none =>
    cases hr : t.requester with
    | nil => simp only [State.requesterStep, hp, hr, Option.Rel.none]
    | cons i rest =>
      simp only [State.requesterStep, hp, hr]
      exact .some ⟨hl, rfl⟩

/-- The completion of an abandoned action is the same in both states: it reaches the chip alone (R45, R102). -/
theorem State.AlikeBeforeInit.staleStep (n : Nat) :
    Option.Rel State.AlikeBeforeInit (s.staleStep n) (t.staleStep n) := by
  obtain ⟨hl, _, _, _, _, _, rfl⟩ := h.eq_update
  cases ha : t.abandoned[n]? with
  | none => simp only [State.staleStep, ha, Option.Rel.none]
  | some a =>
    cases hc : t.transport with
    | nil => simp only [State.staleStep, ha, hc, Option.Rel.none]
    | cons c more =>
      simp only [State.staleStep, ha, hc]
      exact .some ⟨hl, rfl⟩

variable (hi : s.idle)
include hi

/-- A reset takes the registers without a value to the same state, whatever they hold; with nothing in flight there is no row
count to keep (R102). -/
theorem State.AlikeBeforeInit.applyReset : s.applyReset.AlikeBeforeInit t.applyReset := by
  obtain ⟨-, _, _, _, _, _, rfl⟩ := h.eq_update
  obtain ⟨-, hnone, -⟩ : t.idle := hi
  refine ⟨rfl, ?_⟩
  simp [State.SameButUnset, State.applyReset, hnone]

/-- With no action in flight, the transport moves in neither state (R44). -/
theorem State.AlikeBeforeInit.transportStep_eq_none : s.transportStep = none ∧ t.transportStep = none := by
  obtain ⟨-, _, _, _, _, _, rfl⟩ := h.eq_update
  obtain ⟨-, hnone, -⟩ := hi
  exact ⟨State.transportStep_eq_none (.inl hnone), State.transportStep_eq_none (.inl hnone)⟩

variable (hw : s.noEncWrite)
include hw

/-- The block takes the same move in both states: which one is enabled depends on none of these registers (R73). -/
theorem blockMove_alike : Option.Rel AlikeOutcomes (blockMove s) (blockMove t) := by
  have hstep : s.blockStep = t.blockStep := by
    obtain ⟨-, _, _, _, _, _, rfl⟩ := h.eq_update
    rfl
  unfold blockMove
  rw [hstep]
  cases hb : t.blockStep with
  | none => exact .none
  | some b =>
    obtain ⟨i, rfl, hp⟩ := State.blockStep_of_idle hi (hstep.trans hb)
    refine .some (exec_alike ?_ fun _ _ _ _ _ _ _ hwrite => hw _ _ _ _ _ _ _ (hwrite ▸ hp))
    obtain ⟨hl, _, _, _, _, _, rfl⟩ := h.eq_update
    exact ⟨hl, rfl⟩

/-- A scheduled move of two states alike before `INIT`, the block idle. -/
theorem runMove_alike (m : Move) : AlikeOutcomes (runMove m s) (runMove m t) := by
  cases m with
  | block => exact optionRel_getD (blockMove_alike h hi hw) (.before h)
  | transport =>
    obtain ⟨hs, ht⟩ := h.transportStep_eq_none hi
    rw [runMove, runMove, hs, ht]
    exact .before h
  | requester => exact .before (optionRel_getD h.requesterStep h)
  | stale n => exact .before (optionRel_getD (h.staleStep n) h)
  | reset => exact .before (h.applyReset hi)

/-- A move with nothing scheduled, of two states alike before `INIT`, the block idle. -/
theorem defaultMove_alike : AlikeOutcomes (defaultMove s) (defaultMove t) := by
  have hfault : s.fault = t.fault := by
    obtain ⟨-, _, _, _, _, _, rfl⟩ := h.eq_update
    rfl
  obtain ⟨hs, ht⟩ := h.transportStep_eq_none hi
  have hblock := blockMove_alike h hi hw
  have hrequester := h.requesterStep
  unfold defaultMove
  rw [hs, ht, hfault]
  generalize blockMove s = b, blockMove t = b' at hblock ⊢
  generalize s.requesterStep = q, t.requesterStep = q' at hrequester ⊢
  cases hblock with
  | some hb => exact hb
  | none =>
    cases hrequester with
    | some hr => exact .before hr
    | none =>
      cases t.fault.stop with
      | some f => exact .stop f
      | none => exact .before h

/-- A step of two states alike before `INIT`, the block idle. -/
theorem step_alike : AlikeOutcomes (step s) (step t) := by
  have hschedule : s.schedule = t.schedule := by
    obtain ⟨-, _, _, _, _, _, rfl⟩ := h.eq_update
    rfl
  cases hs : s.schedule with
  | nil =>
    rw [step_unscheduled hs, step_unscheduled (hschedule.symm.trans hs)]
    exact defaultMove_alike h hi hw
  | cons m rest =>
    rw [step_scheduled hs, step_scheduled (hschedule.symm.trans hs)]
    exact runMove_alike (h.with_schedule rest) hi hw m

end

/-- Settles O55: before `INIT` the block is idle, so the two states step alike, whoever moves (R91, R103). -/
theorem unsetRegistersAreUnobservable : Obligations.UnsetRegistersAreUnobservable := by
  intro s t s' hs _ hl hsame hw ht
  have halike := step_alike ⟨hl, hsame⟩ (hs.uninit_idle hl) hw
  rw [ht] at halike
  generalize step t = o at halike
  cases halike with
  | @before _ t' h => exact ⟨t', rfl, h.2, fun hr => absurd (h.1.symm.trans hr) nofun⟩
  | accepted t' k => exact ⟨t', rfl, rfl, fun _ => rfl⟩

end Sys2Proof.Machine
